-- ==== Sys2Proof/Word.lean ====
section
/-! DEFINITION. The word and byte of the engine (00_scope R6: WORD_BITS 32, CHANNEL_BITS 8). -/

namespace Sys2Proof

/-- A register, a packed pixel or a byte address: 32 bits (00_scope R6: REG_WIDTH, WORD_BITS, ADDR_WIDTH). -/
abbrev Word := BitVec 32

/-- A channel, or one byte of buffer memory (00_scope R6: CHANNEL_BITS; 10_state R38). -/
abbrev Byte := BitVec 8

end Sys2Proof
end

