-- ==== Sys2Proof/Config.lean ====
section
/-! DEFINITION. What an implementation fixes (00_scope R6), and the free values: constants with no body, of which
nothing can be proved. -/

namespace Sys2Proof

/-- GREY_ARITH (00_scope R6, D16). -/
inductive GreyArith where
  | exact      -- EXACT, the default: 41_greyscale R121
  | binary64   -- BINARY64: 41_greyscale R122
  deriving DecidableEq, Repr

/-- HSV_ARITH (00_scope R6, D17). -/
inductive HsvArith where
  | u8Wrap   -- U8_WRAP, the default: 42_hsv R133, R135
  | int      -- INT: 42_hsv R134, R135
  deriving DecidableEq, Repr

/-- The byte addresses `[base, base + len)`. -/
structure Region where
  base : Nat
  len  : Nat
  deriving DecidableEq, Repr

/-- The parameters of 00_scope R6, and the platform's map of what is not ordinary memory (20_memory R64, R65).
Carried in State, since a step takes no other argument; no step changes it. -/
structure Params where
  greyArith   : GreyArith
  hsvArith    : HsvArith
  /-- MAX_WIDTH (D27). -/
  maxWidth    : Nat
  /-- REG_BASE, the platform address of the 32-byte register window (D28). -/
  regBase     : Nat
  /-- MEM_COHERENT (D30). -/
  memCoherent : Bool
  /-- Where the platform has device registers (20_memory R64). -/
  devices     : List Region
  /-- Where the platform cannot complete an access (20_memory R65). -/
  unbacked    : List Region
  deriving DecidableEq, Repr

/-- The spec's own defaults: EXACT, U8_WRAP, MAX_WIDTH = 2^32 - 1 (00_scope R6). The spec gives REG_BASE and
MEM_COHERENT none: DESIGN CHOICE (log entry 2, unsafe), a window just past the buffer's address space, coherent,
no device and no hole in the memory. -/
def Params.specDefault : Params where
  greyArith := .exact
  hsvArith := .u8Wrap
  maxWidth := 4294967295
  regBase := 4294967296
  memCoherent := true
  devices := []
  unbacked := []

/-- The internal registers of the units (10_state R33 to R37), at the widths R34 to R37 give; where they give none, the width is
marked at the field (log entry 5). No rule reads one before it is cleared (70_reset R200), so nothing in the model reads one. -/
structure Datapath where
  /-- R33: the index of the pixel being worked on. A natural number: DESIGN CHOICE, R33 gives no width (log entry 5). -/
  cursor   : Nat
  /-- R34: the luma accumulator. -/
  luma     : BitVec 15
  -- R35: the HSV registers, 8 bits under U8_WRAP; DEDUCED (log entry 5): 8 bits hold them under INT too, but for the two marked
  cmax     : Byte
  cmin     : Byte
  diff     : Byte
  /-- R35: the channel difference; 9 bits, for [-255, 255] under INT (DEDUCED, log entry 5). -/
  chanDiff : BitVec 9
  /-- R35: the quotient. Under INT R35 gives it a sign and the values -1, 0 and 1, but no width: 8 bits in both modes, DESIGN CHOICE
  (log entry 5). -/
  quotient : Byte
  /-- R35: the saturation product; 16 bits, as INT needs (log entry 5). -/
  product  : BitVec 16
  hue      : Byte
  sat      : Byte
  value    : Byte
  -- R36: the emboss differences; "10-bit two's complement suffices"
  dr       : BitVec 10
  dg       : BitVec 10
  db       : BitVec 10
  -- R37: the blur accumulators
  sumR     : BitVec 16
  sumG     : BitVec 16
  sumB     : BitVec 16
  sumA     : BitVec 16
  deriving DecidableEq, Repr, Inhabited

/-- Every internal register at 0: their value at reset. DESIGN CHOICE (log entry 5, unsafe): the spec says "no value". -/
def Datapath.zero : Datapath where
  cursor := 0
  luma := 0
  cmax := 0
  cmin := 0
  diff := 0
  chanDiff := 0
  quotient := 0
  product := 0
  hue := 0
  sat := 0
  value := 0
  dr := 0
  dg := 0
  db := 0
  sumR := 0
  sumG := 0
  sumB := 0
  sumA := 0

/-- The n-th free byte: what a host read of the buffer while BUSY returns (20_memory R58), a byte of the buffer
after a reset while BUSY (70_reset R202), a byte whose cache maintenance was left out (20_memory R63). Log entry 4. -/
opaque Config.freeByte : Nat → Byte

/-- What the internal registers hold after a command (10_state R31, R33; 70_reset R200: "no value"). Log entry 5. -/
opaque Config.freeDatapath : Nat → Datapath

end Sys2Proof
end

