-- ==== Sys2Proof/Syntax.lean ====
section
/-! DEFINITION. The commands of the engine: one constructor per row of spec/opcode_table.json. -/

namespace Sys2Proof

/-- The four commands (00_scope R2, 30_encoding R72). A command word holds no operand (30_encoding R71, R73):
its operands are the registers WIDTH, HEIGHT, BASE and LEN. -/
inductive Instr where
  | grey     -- GREY, 41_greyscale R120
  | hsv      -- HSV, 42_hsv R130
  | emboss   -- EMBOSS, 43_emboss R150
  | blur     -- BLUR, 44_blur R165
  deriving DecidableEq, Repr

end Sys2Proof
end

