-- ==== Sys2Proof/Machine/State.lean ====
section
/-! DEFINITION. The state of the machine, what stops it, and the state after reset. -/

namespace Sys2Proof.Machine

/-- Buffer memory (10_state R38): the bytes that differ from what an unlisted address reads as, by rising address. -/
abbrev Memory := List Host.Cell

/-- STATUS.ERR (10_state R25). The reserved code 0b11 is never produced (60_exceptions R181), so it has no constructor (DEDUCED, log entry 13). -/
inductive Err where
  | ok              -- 0b00
  | invalidBuffer   -- 0b01, 60_exceptions R183
  | illegalOp       -- 0b10, 60_exceptions R182
  deriving DecidableEq, Repr

/-- The engine's phase (10_state R31). STATUS.BUSY mirrors it. `op` and `snap` have a value only while BUSY (70_reset R200). -/
inductive Phase where
  | idle
  /-- A command runs: the command latched at issue and the snapshot (20_memory R55), the bytes `[BASE, BASE + 4*N)` as they were. -/
  | busy (op : Instr) (snap : Memory)
  deriving DecidableEq, Repr

/-- The eight slots of the register window (10_state R23). -/
inductive Reg where
  | cmd | status | width | height | base | len | reserved18 | reserved1C
  deriving DecidableEq, Repr

/-- One host transaction (30_encoding R70, R76) or a host cache maintenance (20_memory R63). `off` is the byte offset
in the window and `size` the number of bytes accessed. -/
inductive HostOp where
  | rd (off size : Nat)
  | wr (off size : Nat) (data : Word)
  | ld32 (addr : Word)
  | ld8 (addr : Word)
  | st32 (addr data : Word)
  /-- The host writes back its cached lines of the range (20_memory R63, before issue). -/
  | writeBack (r : Region)
  /-- The host invalidates its cached lines of the range (20_memory R63, after completion). -/
  | invalidate (r : Region)
  deriving DecidableEq, Repr

/-- What happens next outside or beside the engine's own arithmetic. -/
inductive Input where
  /-- The host's next transaction. -/
  | host (op : HostOp)
  /-- The engine takes its turn before the inputs behind this one (60_exceptions R185, R186). -/
  | engine
  /-- The host's WAIT loop (30_encoding R77): `polls` is how many polls come before the engine's turn, if it is BUSY. -/
  | wait (polls : Nat)
  /-- The engine's reset input is asserted and released (70_reset R200). -/
  | reset
  deriving DecidableEq, Repr

/-- The machine. -/
structure State where
  /-- The configuration (00_scope R6); no step changes it. -/
  params       : Params
  /-- WIDTH (10_state R26). -/
  width        : Word
  /-- HEIGHT (10_state R27). -/
  height       : Word
  /-- BASE (10_state R28). -/
  base         : Word
  /-- LEN (10_state R29). -/
  len          : Word
  /-- The phase, with the latched command and the snapshot (10_state R31). -/
  phase        : Phase
  /-- STATUS.DONE (10_state R25). -/
  done         : Bool
  /-- STATUS.ERR (10_state R25). -/
  err          : Err
  /-- STATUS.WBUSY (10_state R25). -/
  wbusy        : Bool
  /-- Buffer memory (10_state R38). -/
  mem          : Memory
  /-- The units' internal registers (10_state R33 to R37). -/
  datapath     : Datapath
  /-- The data the last host read returned (30_encoding R70). -/
  rdata        : Word
  /-- What the host does next, and where the engine's turns fall (log entry 7). -/
  inputs       : List Input
  /-- How many free values have been taken (log entry 4). -/
  draws        : Nat
  /-- The bytes of host stores not yet written back; used only where MEM_COHERENT is false (log entry 8). -/
  hostStores   : List Region
  /-- Bytes of buffers the engine wrote that the host has neither invalidated nor stored to since; used only where MEM_COHERENT is
  false (log entry 8). -/
  engineWrites : List Region
  deriving DecidableEq, Repr

/-- Why the machine stops. -/
inductive Fault where
  /-- A host store reached a byte of the running command's buffer (20_memory R58, 70_reset R204). Raised by a host store.
  Safe: the spec leaves everything after it unspecified. -/
  | hostRace
  /-- An access the platform cannot complete (20_memory R65, D32: the engine is stuck). Raised by completion, and by a host
  load or store. Safe: nothing is claimed after it. -/
  | busError
  /-- A host load or store runs past the last of the 2^32 bytes (10_state R38). Safe: the spec has no such address. -/
  | outsideAddressSpace
  deriving DecidableEq, Repr

/-- What the model gives no meaning. -/
inductive Refusal where
  /-- The instruction of this name has no meaning yet. Raised by `exec` alone. Safe. -/
  | notModelled (mnemonic : String)
  /-- A register-window access that is not an aligned 32-bit access of a slot (10_state R30: "A model refuses it"). Raised by a
  host access. Safe. -/
  | windowAccess
  /-- A host load or store of a device's registers (20_memory R64). Raised by a host access. Safe. -/
  | deviceAccess
  /-- A command whose buffer lies over a device or over the register window (20_memory R64: "a model refuses it"). Raised by
  issue. Safe. -/
  | bufferOverDevice
  deriving DecidableEq, Repr

/-- The outcome of a step of this machine. -/
abbrev Result := Host.Outcome State Fault Refusal

/-- The machine after reset with parameters `p` (70_reset R200): every register 0, IDLE, nothing listed in memory. The
accumulators (log entry 5), `rdata` (6), `inputs` (7), `draws` (4) and the maintenance lists (8) are DESIGN CHOICE. -/
def State.resetWith (p : Params) : State where
  params := p
  width := 0
  height := 0
  base := 0
  len := 0
  phase := .idle
  done := false
  err := .ok
  wbusy := false
  mem := []
  datapath := Datapath.zero
  rdata := 0
  inputs := []
  draws := 0
  hostStores := []
  engineWrites := []

/-- The machine right after reset, with the parameters the spec gives as defaults (log entry 2). -/
def State.reset : State := State.resetWith Params.specDefault

end Sys2Proof.Machine
end

