-- ==== Sys2Proof/Machine/Flags.lean ====
section
/-! DEFINITION. The STATUS register: its one read view and its write (10_state R25). The engine has no other flag (10_state R22). -/

namespace Sys2Proof.Machine

/-- The two bits of STATUS.ERR (10_state R25). -/
def errCode : Err → BitVec 2
  | .ok => 0b00
  | .invalidBuffer => 0b01
  | .illegalOp => 0b10

/-- STATUS.BUSY mirrors the phase (10_state R31). -/
def State.isBusy (s : State) : Bool :=
  match s.phase with
  | .idle => false
  | .busy _ _ => true

/-- STATUS as it reads: BUSY [0], DONE [1], ERR [3:2], WBUSY [4], zeros above (10_state R25). -/
def State.status (s : State) : Word :=
  (0#27 ++ BitVec.ofBool s.wbusy ++ errCode s.err ++ BitVec.ofBool s.done ++ BitVec.ofBool s.isBusy : BitVec 32)

/-- A write of STATUS: DONE and WBUSY are cleared by a 1, nothing else changes (10_state R25). -/
def State.writeStatus (s : State) (v : Word) : State :=
  { s with done := s.done && !v.getLsbD 1, wbusy := s.wbusy && !v.getLsbD 4 }

/-- A write dropped because the engine is BUSY (60_exceptions R188). -/
def State.dropWrite (s : State) : State := { s with wbusy := true }

end Sys2Proof.Machine
end

