-- ==== Sys2Proof/WellFormed.lean ====
section
/-! DEFINITION. Which command words, register accesses and parameters are well formed. -/

namespace Sys2Proof

/-- Every command is well formed: a command has no operand field (30_encoding R71, R73). -/
def Instr.wf : Instr → Bool
  | .grey | .hsv | .emboss | .blur => true

/-- RSVD = 0 and OP one of 0b001 to 0b100 (30_encoding R72, R74). -/
def commandWordWf (c : Word) : Bool :=
  c.extractLsb' 3 29 == 0 && 1 ≤ (c.extractLsb' 0 3).toNat && (c.extractLsb' 0 3).toNat ≤ 4

/-- A naturally aligned 32-bit access inside the 32-byte window (10_state R23, R30; 30_encoding R70). `off` is the offset from
REG_BASE: that a host load or store is aligned by its offset, not by its address, is a DESIGN CHOICE (log entry 9). -/
def regAccessWf (off size : Nat) : Bool :=
  size == 4 && off % 4 == 0 && off < 32

/-- MAX_WIDTH is a width: at most 2^32 - 1 (00_scope R6). -/
def Params.wf (p : Params) : Bool :=
  p.maxWidth < 4294967296

end Sys2Proof
end

