-- ==== Sys2Proof/Decode.lean ====
section
/-! DEFINITION. The decoder of command words (30_encoding R70 to R75), total and rejecting by name, and the encoder. -/

namespace Sys2Proof

/-- Why bytes are no command. -/
inductive DecodeError where
  | reservedBits   -- RSVD is not 0 (30_encoding R74)
  | reservedOp     -- OP is 0b000, 0b101, 0b110 or 0b111 (30_encoding R72, R74)
  | truncated      -- fewer than the four bytes of a command word (30_encoding R70)
  deriving DecidableEq, Repr

/-- The RSVD field, bits 31..3 (30_encoding R71). -/
def rsvdField (c : Word) : BitVec 29 := c.extractLsb' 3 29

/-- The OP field, bits 2..0 (30_encoding R71). -/
def opField (c : Word) : BitVec 3 := c.extractLsb' 0 3

/-- The command a command word selects (30_encoding R72). -/
def decodeWord (c : Word) : Except DecodeError Instr :=
  if rsvdField c ≠ 0 then .error .reservedBits
  else match (opField c).toNat with
    | 1 => .ok .grey
    | 2 => .ok .hsv
    | 3 => .ok .emboss
    | 4 => .ok .blur
    | _ => .error .reservedOp

/-- Four bytes as a word, the first the least significant (20_memory R53). -/
def wordOfBytes (b0 b1 b2 b3 : Byte) : Word := b3 ++ b2 ++ b1 ++ b0

/-- The four bytes of a word, the least significant first (20_memory R53). -/
def bytesOfWord (w : Word) : List Byte :=
  [w.extractLsb' 0 8, w.extractLsb' 8 8, w.extractLsb' 16 8, w.extractLsb' 24 8]

/-- The command at the front of a list of bytes, and the bytes after it. Every command is one 32-bit word (30_encoding R70, R75). -/
def decodeBytes : List Byte → Except DecodeError (Instr × List Byte)
  | b0 :: b1 :: b2 :: b3 :: rest =>
    match decodeWord (wordOfBytes b0 b1 b2 b3) with
    | .ok i => .ok (i, rest)
    | .error e => .error e
  | _ => .error .truncated

/-- The OP value of a command (30_encoding R72). -/
def opcode : Instr → BitVec 3
  | .grey => 0b001
  | .hsv => 0b010
  | .emboss => 0b011
  | .blur => 0b100

/-- The command word of a command: RSVD = 0 above OP (30_encoding R71, R72). -/
def encode (i : Instr) : Word := (0#29 ++ opcode i : BitVec 32)

/-- A command word as bytes, least significant first. -/
def encodeBytes (i : Instr) : List Byte := bytesOfWord (encode i)

/-- The low `nbits` bits of `w` as a command word. -/
def tableWord (nbits w : Nat) : Word := BitVec.ofNat 32 (w % 2 ^ nbits)

/-- What the decoder reads from an opcode-table row's bits, laid out as the four bytes of a command word. -/
def decodeTableWord (nbits w : Nat) : Option Instr :=
  match decodeBytes (bytesOfWord (tableWord nbits w)) with
  | .ok (i, _) => some i
  | .error _ => none

end Sys2Proof
end

