-- ==== Sys2Proof/Machine/Memory.lean ====
section
/-! DEFINITION. The operations over buffer memory and over ranges of addresses. -/

namespace Sys2Proof.Machine

/-! Buffer memory. -/

/-- What an address nothing has written reads as. DESIGN CHOICE (log entry 1, unsafe): buffer memory is not reset and the
spec gives it no contents (70_reset R201). -/
def unlistedByte : Byte := 0

/-- The byte listed at `a`, or what an unlisted address reads as. -/
def lookup : Memory → Nat → Byte
  | [], _ => unlistedByte
  | (k, b) :: m, a => if k = a then b else lookup m a

/-- The list with `b` at address `a`, in the canonical form of `Memory.wf`. -/
def put : Memory → Nat → Byte → Memory
  | [], a, b => if b = unlistedByte then [] else [(a, b)]
  | (k, c) :: m, a, b =>
    if a < k then (if b = unlistedByte then (k, c) :: m else (a, b) :: (k, c) :: m)
    else if a = k then (if b = unlistedByte then m else (a, b) :: m)
    else (k, c) :: put m a b

/-- The canonical form: addresses strictly rising, inside the 2^32 bytes of 10_state R38, no entry equal to an unlisted byte. -/
abbrev Memory.wf (m : Memory) : Prop :=
  m.Pairwise (fun x y => x.1 < y.1) ∧ ∀ c ∈ m, c.1 < 4294967296 ∧ c.2 ≠ unlistedByte

/-- MemRead(a, 1) (00_scope R9). -/
def readByte (m : Memory) (a : Word) : Byte := lookup m a.toNat

/-- MemWrite(a, 1, b) (00_scope R9). -/
def writeByte (m : Memory) (a : Word) (b : Byte) : Memory := put m a.toNat b

/-- MemRead(a, 4): little-endian (20_memory R53). -/
def readWord (m : Memory) (a : Word) : Word :=
  wordOfBytes (readByte m a) (readByte m (a + 1)) (readByte m (a + 2)) (readByte m (a + 3))

/-- The bytes `bs` stored from `a` upward. -/
def writeBytes (m : Memory) (a : Word) : List Byte → Memory
  | [] => m
  | b :: bs => writeBytes (writeByte m a b) (a + 1) bs

/-- The entries of the `n` bytes from `a` (20_memory R55: the snapshot's range). -/
def restrict (m : Memory) (a n : Nat) : Memory :=
  m.filter (fun c => decide (a ≤ c.1) && decide (c.1 < a + n))

/-! Ranges of addresses. -/

/-- Whether the address lies in the range. -/
def Region.has (r : Region) (a : Nat) : Bool := decide (r.base ≤ a) && decide (a < r.base + r.len)

/-- Whether the two ranges share an address. -/
def Region.meets (r t : Region) : Bool :=
  decide (r.base < t.base + t.len) && decide (t.base < r.base + r.len) && decide (0 < r.len) && decide (0 < t.len)

/-- The first range without the addresses of the second, in at most two pieces. -/
def Region.minus (r t : Region) : List Region :=
  let low : Region := ⟨r.base, min r.len (t.base - r.base)⟩
  let start := max r.base (t.base + t.len)
  let high : Region := ⟨start, r.base + r.len - start⟩
  [low, high].filter (fun q => decide (0 < q.len))

/-- Whether the range meets one of the list. -/
def anyMeets (l : List Region) (r : Region) : Bool := l.any (Region.meets r)

/-- Whether the address lies in one of the list. -/
def anyHas (l : List Region) (a : Nat) : Bool := l.any (fun r => Region.has r a)

/-- The ranges of `l` without the addresses of `r`. -/
def without (l : List Region) (r : Region) : List Region := l.flatMap (fun q => Region.minus q r)

/-- The ranges of `l` without the addresses of any of `rs`. -/
def withoutAll (l rs : List Region) : List Region := rs.foldl without l

/-- The addresses of the ranges. -/
def addresses (l : List Region) : List Word :=
  l.flatMap (fun q => (List.range q.len).map (fun k => BitVec.ofNat 32 (q.base + k)))

/-- Free values stored at the addresses `as`, the first of them the `d`-th (log entries 4 and 8). -/
def writeFree (m : Memory) (d : Nat) : List Word → Memory
  | [] => m
  | a :: as => writeFree (writeByte m a (Config.freeByte d)) (d + 1) as

/-- The 32 bytes of the register window (10_state R23). -/
def windowRegion (p : Params) : Region := ⟨p.regBase, 32⟩

end Sys2Proof.Machine
end

