-- ==== Sys2Proof/Machine/Operands.lean ====
section
/-! DEFINITION. The operand forms: the pixel words of a command (00_scope R10) and the register window's slots (10_state R23). -/

namespace Sys2Proof.Machine

/-! The buffer of a command. -/

/-- `N = WIDTH * HEIGHT`, the exact product (00_scope R10, 30_encoding R73). -/
def State.pixels (s : State) : Nat := s.width.toNat * s.height.toNat

/-- The bytes `[BASE, BASE + 4*N)` (20_memory R51). -/
def State.buffer (s : State) : Region := ⟨s.base.toNat, 4 * s.pixels⟩

/-- `row(i) = i div W` (00_scope R10). -/
def rowOf (w i : Nat) : Nat := i / w

/-- `col(i) = i mod W` (00_scope R10). -/
def colOf (w i : Nat) : Nat := i % w

/-- `P0[i]` over the snapshot of the buffer at `base` (00_scope R10, 20_memory R55). -/
def pixelAt (snap : Memory) (base : Word) (i : Nat) : Word :=
  readWord snap (base + BitVec.ofNat 32 (4 * i))

/-- The words of the `n` pixels `f 0 .. f (n-1)` as bytes in memory order. -/
def pixelBytes (f : Nat → Word) (n : Nat) : List Byte :=
  (List.range n).flatMap (fun i => bytesOfWord (f i))

/-- The slot a window access reaches (10_state R23), none where it is not an aligned 32-bit access of a slot (10_state R30). -/
def regAt (off size : Nat) : Option Reg :=
  if regAccessWf off size then
    match off / 4 with
    | 0 => some .cmd
    | 1 => some .status
    | 2 => some .width
    | 3 => some .height
    | 4 => some .base
    | 5 => some .len
    | 6 => some .reserved18
    | _ => some .reserved1C
  else none

/-- A register read (10_state R23 to R30): no side effect; CMD and the reserved slots read 0. -/
def State.readReg (s : State) : Reg → Word
  | .cmd => 0
  | .status => s.status
  | .width => s.width
  | .height => s.height
  | .base => s.base
  | .len => s.len
  | .reserved18 => 0
  | .reserved1C => 0

end Sys2Proof.Machine
end

