-- ==== Sys2Proof/Machine/Codec.lean ====
section
/-! DEFINITION. pixel_codec (40_pixel_codec R100 to R110): the functions every command uses. -/

namespace Sys2Proof.Machine

/-- `pack` (R100): operands wider than 8 bits run into the next channel, bits above 31 are dropped. -/
def pack (red green blue alpha : Nat) : Word :=
  BitVec.ofNat 32 ((alpha <<< 24) ||| (blue <<< 16) ||| (green <<< 8) ||| red)

/-- `unpack_red` (R101). -/
def unpackRed (w : Word) : Byte := w.extractLsb' 0 8

/-- `unpack_green` (R102). -/
def unpackGreen (w : Word) : Byte := w.extractLsb' 8 8

/-- `unpack_blue` (R103). -/
def unpackBlue (w : Word) : Byte := w.extractLsb' 16 8

/-- `unpack_alpha` (R104). -/
def unpackAlpha (w : Word) : Byte := w.extractLsb' 24 8

/-- `max_channel` (R106). -/
def maxChannel (r g b : Byte) : Byte := BitVec.ofNat 8 (max r.toNat (max g.toNat b.toNat))

/-- `min_channel` (R107). -/
def minChannel (r g b : Byte) : Byte := BitVec.ofNat 8 (min r.toNat (min g.toNat b.toNat))

/-- An exact rational, `num / den` with `den > 0`. -/
structure Ratio where
  num : Int
  den : Nat
  deriving DecidableEq, Repr

/-- `truncate_channel` (R108): `factor * value + bias` exact over the rationals, clamped to [0, 255], the fraction dropped. -/
def truncateChannel (value factor bias : Ratio) : Byte :=
  let num : Int := factor.num * value.num * bias.den + bias.num * (factor.den * value.den)
  let den : Nat := factor.den * value.den * bias.den
  if num < 0 then 0
  else if (255 * den : Nat) < num then 255
  else BitVec.ofInt 8 (num / den)

/-- A grey level in red, green and blue over the alpha of `w` (41_greyscale R120, 43_emboss R154). -/
def greyWord (level : Byte) (w : Word) : Word :=
  pack level.toNat level.toNat level.toNat (unpackAlpha w).toNat

end Sys2Proof.Machine
end

