-- ==== Sys2Proof/Machine/Ops.lean ====
section
/-! DEFINITION. The named operations of the engine: the issue of a command with its validation and rejection, its completion,
and reset. The engine takes no trap (60_exceptions R187): rejection is its one error path. -/

namespace Sys2Proof.Machine

/-! Issue (60_exceptions R180 to R184). -/

/-- Checks 2 to 6 of 60_exceptions R181, in that order. -/
def validateOperands (p : Params) (width height base len : Word) : Err :=
  if base = 0 then .invalidBuffer
  else if base.extractLsb' 0 2 ≠ 0 then .invalidBuffer
  else if len.toNat ≠ width.toNat * height.toNat then .invalidBuffer
  else if base.toNat + 4 * len.toNat > 4294967296 then .invalidBuffer
  else if width.toNat > p.maxWidth then .invalidBuffer
  else .ok

/-- `validate` of 60_exceptions R181: the first check that fails decides. -/
def validate (c : Word) (p : Params) (width height base len : Word) : Err :=
  match decodeWord c with
  | .error _ => .illegalOp
  | .ok _ => validateOperands p width height base len

/-- `validate` of the word `c` against the operand registers as they stand. -/
def State.validate (s : State) (c : Word) : Err :=
  Machine.validate c s.params s.width s.height s.base s.len

/-- A command rejected at issue: ERR is the code, DONE is 1, nothing else changes (60_exceptions R180, R182, R183, R184). -/
def State.reject (s : State) (e : Err) : State := { s with done := true, err := e }

/-- Byte `a` of buffer memory as the engine sees it at issue: where MEM_COHERENT is false, a byte the host stored and has not
written back is free (20_memory R63, log entry 8). -/
def State.engineSees (s : State) (k : Nat) : Byte :=
  if anyHas s.hostStores (s.base.toNat + k) then Config.freeByte (s.draws + k)
  else readByte s.mem (s.base + BitVec.ofNat 32 k)

/-- The snapshot: the bytes `[BASE, BASE + 4*N)` at issue (20_memory R55). -/
def State.snapshot (s : State) : Memory :=
  if s.params.memCoherent then restrict s.mem s.base.toNat (4 * s.pixels)
  else writeBytes [] s.base ((List.range (4 * s.pixels)).map s.engineSees)

/-- How many free values the snapshot takes. -/
def State.snapshotDraws (s : State) : Nat :=
  if s.params.memCoherent then 0 else 4 * s.pixels

/-- A command accepted at issue: DONE and ERR cleared, the command and the snapshot latched, BUSY (60_exceptions R180). -/
def State.accept (s : State) (i : Instr) : State :=
  { s with done := false, err := .ok, phase := .busy i s.snapshot, draws := s.draws + s.snapshotDraws }

/-- Whether the buffer lies over a device or over the register window (20_memory R64). -/
def State.overDevice (s : State) : Bool :=
  anyMeets (windowRegion s.params :: s.params.devices) s.buffer

/-- Issue of the command `i` in the IDLE phase (60_exceptions R180). Where it is refused: DESIGN CHOICE, log entry 11. -/
def issue (i : Instr) (s : State) : Host.Outcome State Fault Refusal :=
  match s.validate (encode i) with
  | .ok => if s.overDevice then .refused .bufferOverDevice else .next (s.accept i)
  | e => .next (s.reject e)

/-! Completion (60_exceptions R185). -/

/-- The state after completion: the result's bytes from BASE upward, IDLE, DONE = 1, ERR = OK. The internal registers keep no
value (70_reset R200, log entry 5); where MEM_COHERENT is false the host's copy of the buffer is stale (20_memory R63). -/
def State.complete (s : State) (result : List Byte) : State :=
  { s with
    mem := writeBytes s.mem s.base result
    phase := .idle
    done := true
    err := .ok
    datapath := Config.freeDatapath s.draws
    draws := s.draws + 1
    engineWrites := if s.params.memCoherent then s.engineWrites else s.buffer :: s.engineWrites }

/-- The completion step. Where the platform does not back the buffer the engine is stuck (20_memory R65; DESIGN CHOICE
of the step, log entry 11). -/
def complete (result : List Byte) (s : State) : Host.Outcome State Fault Refusal :=
  if anyMeets s.params.unbacked s.buffer then .fault .busError else .next (s.complete result)

/-- A command: its issue while IDLE, its completion while BUSY (60_exceptions R180, R185; DEDUCED, log entry 3). `result` gives the bytes to store from
BASE upward, as a function of the snapshot's pixels, W and H (20_memory R57). -/
def runCommand (i : Instr) (result : (Nat → Word) → Nat → Nat → List Byte) (s : State) :
    Host.Outcome State Fault Refusal :=
  match s.phase with
  | .idle => issue i s
  | .busy _ snap =>
    complete (result (pixelAt snap s.base) s.width.toNat s.height.toNat) s

/-! Reset (70_reset R200 to R202). -/

/-- Buffer memory after reset: as it was, but free bytes in the range of a command that was running (70_reset R201, R202). -/
def State.memAfterReset (s : State) : Memory :=
  if s.isBusy then
    writeBytes s.mem s.base ((List.range (4 * s.pixels)).map (fun k => Config.freeByte (s.draws + k)))
  else s.mem

/-- The engine's reset: its state as 70_reset R200 says; buffer memory as R201 and R202 say; the host's side as it was. -/
def State.afterReset (s : State) : State :=
  { State.resetWith s.params with
    mem := s.memAfterReset
    rdata := s.rdata
    inputs := s.inputs
    draws := if s.isBusy then s.draws + 4 * s.pixels else s.draws
    hostStores := s.hostStores
    engineWrites :=
      if s.isBusy && !s.params.memCoherent then s.buffer :: s.engineWrites else s.engineWrites }

end Sys2Proof.Machine
end

