-- ==== Sys2Proof/Machine/Blur.lean ====
section
/-! DEFINITION. gaussian_blur_5x5: the command BLUR (44_blur R165 to R170). -/

namespace Sys2Proof.Machine

/-- The 5x5 kernel, row by row (R166). -/
def kernel : List (List Nat) :=
  [[1, 4, 6, 4, 1],
   [4, 16, 24, 16, 4],
   [6, 24, 36, 24, 6],
   [4, 16, 24, 16, 4],
   [1, 4, 6, 4, 1]]

/-- `K[ky][kx]` (R166). -/
def kernelAt (ky kx : Nat) : Nat := (kernel.getD ky []).getD kx 0

/-- The sample coordinate `p + k - 2` where it lies in `[0, n)`; outside, the sample is skipped (R167). -/
def sampleAt (p k n : Nat) : Option Nat :=
  if 2 ≤ p + k ∧ p + k - 2 < n then some (p + k - 2) else none

/-- The kernel's 25 positions (R165). -/
def window : List (Nat × Nat) :=
  (List.range 5).flatMap (fun ky => (List.range 5).map (fun kx => (ky, kx)))

/-- What the position `(ky, kx)` adds to the accumulator of channel `ch` at the pixel `(row, col)`: nothing where the sample lies
outside the image (R167). -/
def tap (px : Nat → Word) (w h : Nat) (ch : Word → Byte) (row col ky kx : Nat) : Nat :=
  match sampleAt row ky h, sampleAt col kx w with
  | some y, some x => kernelAt ky kx * (ch (px (y * w + x))).toNat
  | _, _ => 0

/-- The 16-bit accumulator of channel `ch` after the window of pixel `i` (R165, 10_state R37). -/
def blurAcc (px : Nat → Word) (w h : Nat) (ch : Word → Byte) (i : Nat) : BitVec 16 :=
  window.foldl (fun acc k => acc + BitVec.ofNat 16 (tap px w h ch (rowOf w i) (colOf w i) k.1 k.2)) 0

/-- One output channel: the sum through `truncate_channel(sum, 1/256, 0)` (R165, R168). -/
def blurChannel (px : Nat → Word) (w h : Nat) (ch : Word → Byte) (i : Nat) : Byte :=
  truncateChannel ⟨(blurAcc px w h ch i).toNat, 1⟩ ⟨1, 256⟩ ⟨0, 1⟩

/-- BLUR's output for pixel `i`: all four channels alike (R165, R170). -/
def blurPixel (px : Nat → Word) (w h i : Nat) : Word :=
  pack (blurChannel px w h unpackRed i).toNat (blurChannel px w h unpackGreen i).toNat
    (blurChannel px w h unpackBlue i).toNat (blurChannel px w h unpackAlpha i).toNat

/-- BLUR's result: every word of the buffer, from the snapshot alone (R165, R169). -/
def blurResult (px : Nat → Word) (w h : Nat) : List Byte :=
  pixelBytes (blurPixel px w h) (w * h)

/-- BLUR (R165). -/
def execBlur (s : State) : Host.Outcome State Fault Refusal :=
  runCommand .blur blurResult s

end Sys2Proof.Machine
end

