-- ==== Sys2Proof/Machine/Emboss.lean ====
section
/-! DEFINITION. emboss_filter: the command EMBOSS (43_emboss R150 to R155). -/

namespace Sys2Proof.Machine

/-- The index of the clamped top-left neighbour of pixel `i` in an image `w` wide (R151). -/
def topLeft (w i : Nat) : Nat := (rowOf w i - 1) * w + (colOf w i - 1)

/-- A channel's signed difference (R152). -/
def channelDiff (x y : Byte) : Int := (x.toNat : Int) - (y.toNat : Int)

/-- `diff_max` of a pixel word and its neighbour's (R152): alpha takes no part. -/
def diffMax (w u : Word) : Int :=
  max (channelDiff (unpackRed w) (unpackRed u))
    (max (channelDiff (unpackGreen w) (unpackGreen u)) (channelDiff (unpackBlue w) (unpackBlue u)))

/-- The grey level: `128 + diff_max` narrowed to 8 bits, wrapping (R153). -/
def embossLevel (w u : Word) : Byte := BitVec.ofInt 8 (128 + diffMax w u)

/-- EMBOSS's output for pixel `i`: the level in red, green and blue, the pixel's own alpha (R150, R154). -/
def embossPixel (px : Nat → Word) (w i : Nat) : Word :=
  greyWord (embossLevel (px i) (px (topLeft w i))) (px i)

/-- EMBOSS's result: every word of the buffer, from the snapshot alone (R150, R155). -/
def embossResult (px : Nat → Word) (w h : Nat) : List Byte :=
  pixelBytes (embossPixel px w) (w * h)

/-- EMBOSS (R150). -/
def execEmboss (s : State) : Host.Outcome State Fault Refusal :=
  runCommand .emboss embossResult s

end Sys2Proof.Machine
end

