-- ==== Sys2Proof/Machine/Grey.lean ====
section
/-! DEFINITION. rgb_to_greyscale: the command GREY (41_greyscale R120 to R124). -/

namespace Sys2Proof.Machine

/-- The 15-bit luma accumulator after one pixel (R121, 10_state R34). -/
def lumaAcc (r g b : Byte) : BitVec 15 :=
  21 * r.setWidth 15 + 72 * g.setWidth 15 + 7 * b.setWidth 15

/-- Luma, GREY_ARITH = EXACT (R121). -/
def lumaExact (r g b : Byte) : Byte := BitVec.ofNat 8 ((lumaAcc r g b).toNat / 100)

/-! GREY_ARITH = BINARY64 (R122). Every binary64 value of the luma expression is a multiple of 2^-56, held here as that multiple
(PRESUMED with the spec's G1, DEDUCED; log entry 10). -/

/-- A number rounded to 53 significant bits, to nearest, ties to even: `fl` of R122 (the numbers are far from the ends of the
binary64 range). -/
def fl (n : Nat) : Nat :=
  let drop := n.log2 + 1 - 53
  let q := n / 2 ^ drop
  let rest := n % 2 ^ drop
  if drop = 0 then n
  else if 2 ^ drop < 2 * rest || (2 ^ drop == 2 * rest && q % 2 == 1) then (q + 1) * 2 ^ drop
  else q * 2 ^ drop

/-- The multiple of 2^-k nearest to `hundredths / 100`. -/
def nearest (hundredths k : Nat) : Nat := (2 * hundredths * 2 ^ k + 100) / 200

/-- The binary64 value nearest to 0.21, whose last place is 2^-55. -/
def c21 : Nat := nearest 21 55 * 2 ^ 1

/-- The binary64 value nearest to 0.72, whose last place is 2^-53. -/
def c72 : Nat := nearest 72 53 * 2 ^ 3

/-- The binary64 value nearest to 0.07, whose last place is 2^-56. -/
def c07 : Nat := nearest 7 56

/-- Luma, GREY_ARITH = BINARY64 (R122). -/
def lumaBinary64 (r g b : Byte) : Byte :=
  BitVec.ofNat 8 (fl (fl (fl (c21 * r.toNat) + fl (c72 * g.toNat)) + fl (c07 * b.toNat)) / 2 ^ 56)

/-- Luma in the mode of GREY_ARITH (R121, R122). -/
def luma : GreyArith → Byte → Byte → Byte → Byte
  | .exact => lumaExact
  | .binary64 => lumaBinary64

/-- GREY's output for the pixel word `w` (R120). -/
def greyPixel (m : GreyArith) (w : Word) : Word :=
  greyWord (luma m (unpackRed w) (unpackGreen w) (unpackBlue w)) w

/-- GREY's result: every word of the buffer (R120). -/
def greyResult (m : GreyArith) (px : Nat → Word) (w h : Nat) : List Byte :=
  pixelBytes (fun i => greyPixel m (px i)) (w * h)

/-- GREY (R120). -/
def execGrey (s : State) : Host.Outcome State Fault Refusal :=
  runCommand .grey (greyResult s.params.greyArith) s

end Sys2Proof.Machine
end

