-- ==== Sys2Proof/Machine/Hsv.lean ====
section
/-! DEFINITION. rgb_to_hsv_converter: the command HSV (42_hsv R130 to R142). -/

namespace Sys2Proof.Machine

/-- `diff` (R131). -/
def hsvDiff (r g b : Byte) : Byte := maxChannel r g b - minChannel r g b

/-- One hue branch, HSV_ARITH = U8_WRAP (R133): every narrowing is to 8 bits, the division is unsigned. -/
def hueWrap (k x y diff : Byte) : Byte := k + 43 * ((x - y) / diff)

/-- One hue branch, HSV_ARITH = INT (R134): signed difference, division toward zero, one narrowing at the end. -/
def hueInt (k : Int) (x y diff : Byte) : Byte :=
  BitVec.ofInt 8 (k + 43 * Int.tdiv ((x.toNat : Int) - y.toNat) diff.toNat)

/-- Hue: the branches in the order of R132, in the mode of HSV_ARITH (R133, R134). The constant 200 + 171 stands as the source has it. -/
def hue (m : HsvArith) (r g b : Byte) : Byte :=
  let cmax := maxChannel r g b
  let diff := hsvDiff r g b
  match m with
  | .u8Wrap =>
    if diff = 0 then 0
    else if cmax = r then hueWrap 0 g b diff
    else if cmax = g then hueWrap 85 b r diff
    else hueWrap (200 + 171) r g diff
  | .int =>
    if diff = 0 then 0
    else if cmax = r then hueInt 0 g b diff
    else if cmax = g then hueInt 85 b r diff
    else hueInt (200 + 171) r g diff

/-- Saturation (R135): under U8_WRAP the product is narrowed before the division. -/
def saturation (m : HsvArith) (r g b : Byte) : Byte :=
  let cmax := maxChannel r g b
  let diff := hsvDiff r g b
  if cmax = 0 then 0
  else match m with
    | .u8Wrap => (255 * diff) / cmax
    | .int => BitVec.ofNat 8 (255 * diff.toNat / cmax.toNat)

/-- The three bytes HSV writes for the pixel word `w`: hue, saturation, value (R130, R136, R137). Alpha is ignored (R139). -/
def hsvPixel (m : HsvArith) (w : Word) : List Byte :=
  let r := unpackRed w
  let g := unpackGreen w
  let b := unpackBlue w
  [hue m r g b, saturation m r g b, maxChannel r g b]

/-- HSV's result: the leading 3*N bytes of the buffer (R137); the tail is not written (R138). -/
def hsvResult (m : HsvArith) (px : Nat → Word) (w h : Nat) : List Byte :=
  (List.range (w * h)).flatMap (fun i => hsvPixel m (px i))

/-- HSV (R130). -/
def execHsv (s : State) : Host.Outcome State Fault Refusal :=
  runCommand .hsv (hsvResult s.params.hsvArith) s

end Sys2Proof.Machine
end

