-- ==== Sys2Proof/Machine/Dispatch.lean ====
section
/-! DEFINITION. One arm per command. -/

namespace Sys2Proof.Machine

def exec (i : Instr) (s : State) : Host.Outcome State Fault Refusal :=
  match i with
  | .grey => Sys2Proof.Machine.execGrey s
  | .hsv => Sys2Proof.Machine.execHsv s
  | .emboss => Sys2Proof.Machine.execEmboss s
  | .blur => Sys2Proof.Machine.execBlur s

end Sys2Proof.Machine
end

