-- ==== Sys2Proof/Machine/HostPort.lean ====
section
/-! DEFINITION. The host's side: register transactions, loads and stores, cache maintenance, the WAIT loop, reset, and whose turn
it is (30_encoding R70, R76, R77; 20_memory R58 to R65; 60_exceptions R185, R186, R188). -/

namespace Sys2Proof.Machine

/-- What the next step is: a command runs in a state, or the step is settled without one. -/
inductive Action where
  | run (i : Instr) (s : State)
  | settle (r : Host.Outcome State Fault Refusal)

/-! Register transactions (10_state R23 to R30). -/

/-- A write of CMD (10_state R24): dropped while BUSY (60_exceptions R188); a legal word runs its command; any other word is
rejected (60_exceptions R182). -/
def cmdWrite (c : Word) (s : State) : Action :=
  if s.isBusy then .settle (.next s.dropWrite)
  else match decodeWord c with
    | .ok i => .run i s
    | .error _ => .settle (.next (s.reject (s.validate c)))

/-- A write of a register of the window. -/
def writeReg (r : Reg) (v : Word) (s : State) : Action :=
  match r with
  | .cmd => cmdWrite v s
  | .status => .settle (.next (s.writeStatus v))
  | .width => .settle (.next (if s.isBusy then s.dropWrite else { s with width := v }))
  | .height => .settle (.next (if s.isBusy then s.dropWrite else { s with height := v }))
  | .base => .settle (.next (if s.isBusy then s.dropWrite else { s with base := v }))
  | .len => .settle (.next (if s.isBusy then s.dropWrite else { s with len := v }))
  | .reserved18 => .settle (.next s)
  | .reserved1C => .settle (.next s)

/-- A write transaction; an access the window does not define is refused (10_state R30). -/
def windowWrite (slot : Option Reg) (v : Word) (s : State) : Action :=
  match slot with
  | some r => writeReg r v s
  | none => .settle (.refused .windowAccess)

/-- The state after a register read returned `v` to the host. -/
def State.returned (s : State) (v : Word) : State := { s with rdata := v }

/-- A read transaction: the data goes to the host (30_encoding R70), nothing else changes (10_state R30). -/
def windowRead (slot : Option Reg) (s : State) : Action :=
  match slot with
  | some r => .settle (.next (s.returned (s.readReg r)))
  | none => .settle (.refused .windowAccess)

/-! Host loads and stores. -/

/-- What a host load or store of `n` bytes reaches. -/
inductive Target where
  | memory
  | outside
  | window (slot : Option Reg)
  | device
  | hole
  deriving DecidableEq, Repr

/-- What an access of `n` bytes at `a` reaches: past the address space (10_state R38), the register window at REG_BASE
(10_state R23), a device (20_memory R64), unbacked addresses (20_memory R65), or buffer memory. DEDUCED and DESIGN CHOICE, log entry 9.
DESIGN CHOICE (log entry 9): 'naturally aligned' of 10_state R30 is tested of the offset from REG_BASE, not of the platform address.
The spec gives REG_BASE no alignment (00_scope R6), and where it is no multiple of 4 does not say which of the two is meant. -/
def target (p : Params) (a : Word) (n : Nat) : Target :=
  let r : Region := ⟨a.toNat, n⟩
  if a.toNat + n > 4294967296 then .outside
  else if Region.meets r (windowRegion p) then
    .window (if p.regBase ≤ a.toNat then regAt (a.toNat - p.regBase) n else none)
  else if anyMeets p.devices r then .device
  else if anyMeets p.unbacked r then .hole
  else .memory

/-- Whether a host load of the byte at `a` returns an unspecified value: the running command's buffer (20_memory R58), or, where
MEM_COHERENT is false, a buffer the engine wrote and the host has not invalidated (20_memory R63). -/
def State.unspecified (s : State) (a : Nat) : Bool :=
  (s.isBusy && Region.has s.buffer a) || (!s.params.memCoherent && anyHas s.engineWrites a)

/-- Byte `k` of a host load at `a`: memory's byte, or a free value. DESIGN CHOICE (log entry 14, unsafe): a load after a completion
returns the completed result even where no STATUS read that showed BUSY = 0 lies between; 20_memory R59 promises no order there. -/
def State.loadByte (s : State) (a : Word) (k : Nat) : Byte :=
  if s.unspecified (a + BitVec.ofNat 32 k).toNat then Config.freeByte (s.draws + k)
  else readByte s.mem (a + BitVec.ofNat 32 k)

/-- How many free values a host load of `n` bytes takes. -/
def State.loadDraws (s : State) (a : Word) (n : Nat) : Nat :=
  if (List.range n).any (fun k => s.unspecified (a + BitVec.ofNat 32 k).toNat) then n else 0

/-- A host load that returned `v`. -/
def State.loaded (s : State) (a : Word) (n : Nat) (v : Word) : State :=
  { s with rdata := v, draws := s.draws + s.loadDraws a n }

/-- LD32's data: little-endian (20_memory R53). -/
def State.load32 (s : State) (a : Word) : Word :=
  wordOfBytes (s.loadByte a 0) (s.loadByte a 1) (s.loadByte a 2) (s.loadByte a 3)

/-- LD8's data. -/
def State.load8 (s : State) (a : Word) : Word := (s.loadByte a 0).setWidth 32

/-- A host load of `n` bytes with data `v` at an address that reaches `t`. -/
def hostLoad (t : Target) (a : Word) (n : Nat) (v : Word) (s : State) : Action :=
  match t with
  | .memory => .settle (.next (s.loaded a n v))
  | .outside => .settle (.fault .outsideAddressSpace)
  | .window slot => windowRead slot s
  | .device => .settle (.refused .deviceAccess)
  | .hole => .settle (.fault .busError)

/-- ST32 into buffer memory: little-endian (20_memory R53). Where MEM_COHERENT is false the store is pending until written back, and
the host reads its own store there, not a stale copy (20_memory R63, log entry 8). -/
def State.stored (s : State) (a v : Word) : State :=
  { s with
    mem := writeBytes s.mem a (bytesOfWord v)
    hostStores := if s.params.memCoherent then s.hostStores else ⟨a.toNat, 4⟩ :: s.hostStores
    engineWrites := if s.params.memCoherent then s.engineWrites else without s.engineWrites ⟨a.toNat, 4⟩ }

/-- A host store of the word `v` at an address that reaches `t`. A store into the running command's buffer is the fault
hostRace (20_memory R58, 70_reset R204). -/
def hostStore (t : Target) (a v : Word) (s : State) : Action :=
  match t with
  | .memory =>
    if s.isBusy && Region.meets ⟨a.toNat, 4⟩ s.buffer then .settle (.fault .hostRace)
    else .settle (.next (s.stored a v))
  | .outside => .settle (.fault .outsideAddressSpace)
  | .window slot => windowWrite slot v s
  | .device => .settle (.refused .deviceAccess)
  | .hole => .settle (.fault .busError)

/-! Host cache maintenance (20_memory R63, log entry 8): byte by byte, where MEM_COHERENT is false. -/

/-- What of the range `r` a maintenance settles: nothing where there is nothing to maintain; while BUSY all but the running
command's buffer. DESIGN CHOICE (log entry 8): the spec does not say whether a write-back over the running buffer is a host write
(20_memory R58, 70_reset R204). Here it is no HostRace and settles nothing: a store pending there stays pending. -/
def State.settles (s : State) (r : Region) : List Region :=
  if s.params.memCoherent then []
  else if s.isBusy then Region.minus r s.buffer
  else [r]

/-- The bytes of host stores not yet written back at which `f` holds. -/
def State.pending (s : State) (f : Nat → Bool) : List Word :=
  (addresses s.hostStores).filter (fun a => anyHas s.hostStores a.toNat && f a.toNat)

/-- The bytes a write-back of `r` leaves unspecified in memory: the engine wrote them after a store that was still pending, so the
host had left out its write-back before issue (20_memory R63). -/
def State.clobbered (s : State) (r : Region) : List Word :=
  s.pending (fun a => anyHas (s.settles r) a && anyHas s.engineWrites a)

/-- The bytes an invalidation of `r` leaves unspecified in memory: the store pending there may be lost. -/
def State.discarded (s : State) (r : Region) : List Word := s.pending (anyHas (s.settles r))

/-- The host writes back its lines of the range: the stores there reach memory, where a snapshot sees them (20_memory R59, R63). -/
def State.wroteBack (s : State) (r : Region) : State :=
  { s with
    mem := writeFree s.mem s.draws (s.clobbered r)
    draws := s.draws + (s.clobbered r).length
    hostStores := withoutAll s.hostStores (s.settles r) }

/-- The host invalidates its lines of the range: its loads there return memory (20_memory R59, R63). -/
def State.invalidated (s : State) (r : Region) : State :=
  { s with
    mem := writeFree s.mem s.draws (s.discarded r)
    draws := s.draws + (s.discarded r).length
    hostStores := withoutAll s.hostStores (s.settles r)
    engineWrites := withoutAll s.engineWrites (s.settles r) }

/-! Turns. -/

/-- The state with other inputs still to come. -/
def State.withInputs (s : State) (ins : List Input) : State := { s with inputs := ins }

/-- One host transaction (30_encoding R76). -/
def hostTurn (op : HostOp) (s : State) : Action :=
  match op with
  | .rd off size => windowRead (regAt off size) s
  | .wr off size v => windowWrite (regAt off size) v s
  | .ld32 a => hostLoad (target s.params a 4) a 4 (s.load32 a) s
  | .ld8 a => hostLoad (target s.params a 1) a 1 (s.load8 a) s
  | .st32 a v => hostStore (target s.params a 4) a v s
  | .writeBack r => .settle (.next (s.wroteBack r))
  | .invalidate r => .settle (.next (s.invalidated r))

/-- The engine's turn: while BUSY the completion of the latched command, its one enabled step (60_exceptions R185); while IDLE
nothing (60_exceptions R196). -/
def engineTurn (s : State) : Action :=
  match s.phase with
  | .idle => .settle (.next s)
  | .busy i _ => .run i s

/-- One round of the WAIT loop (30_encoding R77): a read of STATUS that finds BUSY = 0 ends it; while BUSY it reads again, and
after `polls` rounds the engine takes its turn. -/
def waitTurn (polls : Nat) (s : State) : Action :=
  match s.phase, polls with
  | .idle, _ => .settle (.next (s.returned s.status))
  | .busy i _, 0 => .run i (s.withInputs (.wait 0 :: s.inputs))
  | .busy _ _, k + 1 => .settle (.next ((s.returned s.status).withInputs (.wait k :: s.inputs)))

/-- What the next step is. With nothing left of the host's inputs the engine takes its turn (70_reset R209: weak fairness). -/
def nextAction (s : State) : Action :=
  match s.inputs with
  | [] => engineTurn s
  | .engine :: rest => engineTurn (s.withInputs rest)
  | .host op :: rest => hostTurn op (s.withInputs rest)
  | .wait k :: rest => waitTurn k (s.withInputs rest)
  | .reset :: rest => .settle (.next (s.withInputs rest).afterReset)

/-! The pseudo-instructions of 30_encoding R77. -/

/-- GREY, HSV, EMBOSS and BLUR: `WR CMD, <command word>`. -/
def command (i : Instr) : List Input := [.host (.wr 0x00 4 (encode i))]

/-- `SETUP w, h, b`. -/
def setup (w h b : Word) : List Input :=
  [.host (.wr 0x08 4 w), .host (.wr 0x0C 4 h), .host (.wr 0x10 4 b), .host (.wr 0x14 4 (w * h))]

/-- `CLR`. -/
def clr : List Input := [.host (.wr 0x04 4 0x00000012)]

end Sys2Proof.Machine
end

