-- ==== Sys2Proof/Machine/Step.lean ====
section
/-! DEFINITION. One step of the machine. -/

namespace Sys2Proof.Machine

/-- An action carried out: a command runs, anything else is settled already. -/
def perform : Action → Host.Outcome State Fault Refusal
  | .run i t => exec i t
  | .settle r => r

/-- One step: the next action of host and engine, carried out. -/
def step (s : State) : Host.Outcome State Fault Refusal := perform (nextAction s)

/-- `s` with the table's bits as the host's next transaction, a write of CMD. The engine fetches nothing (10_state R21,
20_memory R62): a command word runs when the host writes it to CMD while the engine is IDLE (log entry 7). -/
def State.withFetchWord (s : State) (nbits w : Nat) : State :=
  { s with phase := .idle, inputs := .host (.wr 0x00 4 (tableWord nbits w)) :: s.inputs }

end Sys2Proof.Machine
end

