-- ==== Sys2Proof/Safety.lean ====
section
/-! DEFINITION. What counts as a safe run, in the terms the statements use. -/

namespace Sys2Proof.Machine

/-- The step goes on. -/
def goesOn : Host.Outcome State Fault Refusal → Bool
  | .next _ => true
  | .fault _ => false
  | .refused _ => false

/-- Memory is in its canonical form. -/
def State.memInv (s : State) : Prop := s.mem.wf

/-- What holds while BUSY: DONE is 0, ERR is 0b00 (10_state R25), the operand registers pass the checks of 60_exceptions R181 (they
cannot change while BUSY, 10_state R31), the snapshot is in canonical form. -/
def State.busyInv (s : State) : Prop :=
  match s.phase with
  | .idle => True
  | .busy _ snap =>
    s.done = false ∧ s.err = .ok ∧
    validateOperands s.params s.width s.height s.base s.len = .ok ∧ snap.wf

/-- While BUSY on a coherent platform the buffer still holds the snapshot: the host may not store into it (70_reset R204) and the
engine writes it at completion only (60_exceptions R185). -/
def State.heldInv (s : State) : Prop :=
  match s.phase with
  | .idle => True
  | .busy _ snap =>
    s.params.memCoherent = true →
      ∀ x : Word, Region.has s.buffer x.toNat = true → readByte snap x = readByte s.mem x

/-- The invariant every step keeps. -/
def State.Inv (s : State) : Prop := s.memInv ∧ s.busyInv ∧ s.heldInv

/-- Completion can take place and stays inside the address space: memory in its canonical form, no wrap (20_memory R51, which
validation guarantees), and every byte of the buffer backed (20_memory R65). -/
def State.canComplete (s : State) : Prop :=
  s.mem.wf ∧ s.base.toNat + 4 * s.pixels ≤ 4294967296 ∧ anyMeets s.params.unbacked s.buffer = false

/-- The address lies outside the `n` bytes from BASE. -/
def State.outside (s : State) (n : Nat) (x : Word) : Prop :=
  x.toNat < s.base.toNat ∨ s.base.toNat + n ≤ x.toNat

/-- `t` is `s` after a completion that stored the first `n` bytes of the buffer: STATUS as 60_exceptions R185 says, every other
register, the host's side and every byte outside those `n` as they were. (The internal registers keep no value, 70_reset R200.)
That the whole buffer is then stale where MEM_COHERENT is false, with bytes a command does not write, is log entry 8, the model's
choice, as is that `rdata` is a register at all (log entry 6). -/
def completedOver (n : Nat) (s t : State) : Prop :=
  t.phase = .idle ∧ t.done = true ∧ t.err = .ok ∧ t.wbusy = s.wbusy ∧
  t.width = s.width ∧ t.height = s.height ∧ t.base = s.base ∧ t.len = s.len ∧
  t.params = s.params ∧ t.rdata = s.rdata ∧ t.inputs = s.inputs ∧ t.hostStores = s.hostStores ∧
  t.engineWrites = (if s.params.memCoherent then s.engineWrites else s.buffer :: s.engineWrites) ∧
  ∀ x : Word, s.outside n x → readByte t.mem x = readByte s.mem x

/-- The host keeps its obligation of 70_reset R204 at its next transaction: no store into the running command's buffer. -/
def State.hostKeepsOff (s : State) : Prop :=
  ∀ a v rest, s.inputs = .host (.st32 a v) :: rest → s.isBusy = true →
    Region.meets ⟨a.toNat, 4⟩ s.buffer = false

end Sys2Proof.Machine
end

