-- ==== Sys2Proof/Certificates/Slice0/Obligations.lean ====
section
/-! DEFINITION. The statements for the provers. -/

open Sys2Proof Sys2Proof.Machine

/-! Words the statements use. -/

/-- The luma of a pixel word in the mode of GREY_ARITH. -/
def Sys2Proof.Machine.lumaOf (m : GreyArith) (w : Word) : Nat :=
  (luma m (unpackRed w) (unpackGreen w) (unpackBlue w)).toNat

/-- The blur sum of one channel at the pixel `i`, as 44_blur R165 writes it: every position of the 5x5 window whose sample lies in
the image adds weight times sample. -/
def Sys2Proof.Machine.blurSum (px : Nat → Word) (w h : Nat) (ch : Word → Byte) (i : Nat) : Nat :=
  ∑ ky ∈ Finset.range 5, ∑ kx ∈ Finset.range 5,
    if (2 ≤ i / w + ky ∧ i / w + ky - 2 < h) ∧ (2 ≤ i % w + kx ∧ i % w + kx - 2 < w) then
      kernelAt ky kx * (ch (px ((i / w + ky - 2) * w + (i % w + kx - 2)))).toNat
    else 0

/-- `wr(p, n)` of 44_blur R168: the sum of `k[j]` over the `j` with `0 <= p + j - 2 < n`. -/
def Sys2Proof.Machine.weightSum (p n : Nat) : Nat :=
  ∑ j ∈ Finset.range 5, if 2 ≤ p + j ∧ p + j - 2 < n then [1, 4, 6, 4, 1].getD j 0 else 0

/-- What the command `i` makes of the buffer of `s`, seen in `t` (41_greyscale R120, 42_hsv R130
and R138, 43_emboss R150, 44_blur R165). -/
def Sys2Proof.Machine.transformedBy (i : Instr) (s t : State) : Prop :=
  let px := pixelAt s.mem s.base
  let w := s.width.toNat
  let h := s.height.toNat
  ∀ k, k < s.pixels →
    match i with
    | .grey => readWord t.mem (s.base + BitVec.ofNat 32 (4 * k)) = greyPixel s.params.greyArith (px k)
    | .hsv =>
      readByte t.mem (s.base + BitVec.ofNat 32 (3 * k)) =
          hue s.params.hsvArith (unpackRed (px k)) (unpackGreen (px k)) (unpackBlue (px k)) ∧
        readByte t.mem (s.base + BitVec.ofNat 32 (3 * k + 1)) =
          saturation s.params.hsvArith (unpackRed (px k)) (unpackGreen (px k)) (unpackBlue (px k)) ∧
        readByte t.mem (s.base + BitVec.ofNat 32 (3 * k + 2)) =
          maxChannel (unpackRed (px k)) (unpackGreen (px k)) (unpackBlue (px k)) ∧
        readByte t.mem (s.base + BitVec.ofNat 32 (3 * s.pixels + k)) =
          readByte s.mem (s.base + BitVec.ofNat 32 (3 * s.pixels + k))
    | .emboss => readWord t.mem (s.base + BitVec.ofNat 32 (4 * k)) = embossPixel px w k
    | .blur => readWord t.mem (s.base + BitVec.ofNat 32 (4 * k)) = blurPixel px w h k

/-! Encoding and decoding. -/

/-- A few command words of the opcode table, and words beside them (30_encoding R72, R74). -/
def Obligations.FewCommandWordsDecode : Prop :=
  decodeWord 0x00000001 = .ok .grey ∧ decodeWord 0x00000002 = .ok .hsv ∧
  decodeWord 0x00000003 = .ok .emboss ∧ decodeWord 0x00000004 = .ok .blur ∧
  decodeWord 0x00000000 = .error .reservedOp ∧ decodeWord 0x00000005 = .error .reservedOp ∧
  decodeWord 0x00000009 = .error .reservedBits ∧ decodeWord 0x80000001 = .error .reservedBits

/-- 30_encoding R72: which words select a command; every other word is ILLEGAL_OP. -/
def Obligations.DecodeSelectsExactlyTheFourWords : Prop :=
  ∀ c : Word,
    (decodeWord c = .ok .grey ↔ c = 0x00000001) ∧ (decodeWord c = .ok .hsv ↔ c = 0x00000002) ∧
    (decodeWord c = .ok .emboss ↔ c = 0x00000003) ∧ (decodeWord c = .ok .blur ↔ c = 0x00000004) ∧
    (c ≠ 0x00000001 ∧ c ≠ 0x00000002 ∧ c ≠ 0x00000003 ∧ c ≠ 0x00000004 →
      ∀ s : State, s.validate c = .illegalOp)

/-- Decoding undoes encoding and encoding undoes decoding, over any bytes that follow. -/
def Obligations.DecodeAndEncodeAgree : Prop :=
  (∀ (i : Instr) (bs rest : List Byte), decodeBytes bs = .ok (i, rest) ↔ bs = encodeBytes i ++ rest) ∧
  ∀ (i : Instr) (w : Nat), decodeTableWord 32 w = some i ↔ w % 4294967296 = (encode i).toNat

/-- A CMD write of a command's word while IDLE runs that command; a BUSY engine's turn runs the latched command (60_exceptions R180,
R185); the table's word is run by the very next step (how a program comes to run is log entry 7, the model's choice). -/
def Obligations.StepRunsTheDecodedCommand : Prop :=
  (∀ (s : State) (c : Word) (i : Instr) (rest : List Input), s.phase = .idle →
    s.inputs = .host (.wr 0x00 4 c) :: rest → decodeWord c = .ok i → step s = exec i (s.withInputs rest)) ∧
  (∀ (s : State) (op : Instr) (snap : Memory), s.phase = .busy op snap → s.inputs = [] → step s = exec op s) ∧
  (∀ (s : State) (op : Instr) (snap : Memory) (rest : List Input), s.phase = .busy op snap →
    s.inputs = .engine :: rest → step s = exec op (s.withInputs rest)) ∧
  ∀ (s : State) (w : Nat) (i : Instr), decodeTableWord 32 w = some i →
    step (s.withFetchWord 32 w) = exec i { s with phase := .idle }

/-! Reset. -/

/-- What reset leaves (70_reset R200, every value its table gives), whatever the engine was doing; and a command issued right after
it with the reset operands is rejected with INVALID_BUFFER, because BASE is 0. -/
def Obligations.ResetLeavesTheTableValues : Prop :=
  (∀ p : Params,
    (∀ r : Reg, (State.resetWith p).readReg r = 0) ∧ (State.resetWith p).phase = .idle ∧
    (State.resetWith p).status = 0) ∧
  ∀ (s : State) (rest : List Input), s.inputs = .reset :: rest →
    ∃ t, step s = .next t ∧ (∀ r : Reg, t.readReg r = 0) ∧ t.phase = .idle ∧ t.status = 0 ∧
      t.params = s.params ∧ t.inputs = rest ∧
      ∀ i : Instr, exec i t = .next { t with done := true, err := .invalidBuffer } ∧
        { t with done := true, err := .invalidBuffer }.status = 0x00000006

/-- Reset at any time: registers and phase as after power-on, memory kept, but the bytes of a running command's buffer free
(70_reset R201, R202). Which free value a byte takes, and that the buffer is then listed for invalidation where MEM_COHERENT is
false, is the model's choice (log entries 4 and 8), and so is that the data of the last host read (`rdata`) stays (log entry 6). -/
def Obligations.ResetKeepsMemoryOutsideARunningBuffer : Prop :=
  ∀ (s : State) (rest : List Input), s.inputs = .reset :: rest →
    ∃ t, step s = .next t ∧ (∀ r : Reg, t.readReg r = 0) ∧ t.phase = .idle ∧ t.params = s.params ∧
      t.inputs = rest ∧ t.rdata = s.rdata ∧ t.hostStores = s.hostStores ∧
      (s.phase = .idle → t.mem = s.mem ∧ t.engineWrites = s.engineWrites) ∧
      (s.isBusy = true →
        t.engineWrites = (if s.params.memCoherent then s.engineWrites else s.buffer :: s.engineWrites) ∧
        (s.mem.wf → s.base.toNat + 4 * s.pixels ≤ 4294967296 →
          (∀ x : Word, s.outside (4 * s.pixels) x → readByte t.mem x = readByte s.mem x) ∧
          ∀ k, k < 4 * s.pixels → readByte t.mem (s.base + BitVec.ofNat 32 k) = Config.freeByte (s.draws + k)))

/-! Invariants. -/

/-- The invariant holds at reset. -/
def Obligations.InvariantHoldsAtReset : Prop := ∀ p : Params, (State.resetWith p).Inv

/-- Every step keeps it: memory canonical; while BUSY DONE = 0, ERR = OK, operands valid, the buffer holding the snapshot. -/
def Obligations.EveryStepKeepsTheInvariant : Prop :=
  ∀ s t : State, s.Inv → step s = .next t → t.Inv

/-- No step changes the configuration. -/
def Obligations.EveryStepKeepsTheParameters : Prop :=
  ∀ s t : State, step s = .next t → t.params = s.params

/-- The only steps that change a byte of memory: a host store to it; the end of a running command whose buffer holds it
(20_memory R51, R56; 70_reset R201, R202); and, where MEM_COHERENT is false, a host maintenance over a store to it that was still
pending, outside a running command's buffer (log entry 8, the model's choice). -/
def Obligations.MemoryChangesOnlyByStoreOrEndOfCommand : Prop :=
  ∀ (s t : State) (x : Word), s.Inv → step s = .next t → readByte t.mem x ≠ readByte s.mem x →
    (∃ a v rest, s.inputs = .host (.st32 a v) :: rest ∧ a.toNat ≤ x.toNat ∧ x.toNat < a.toNat + 4) ∨
    (s.isBusy = true ∧ t.phase = .idle ∧ Region.has s.buffer x.toNat = true) ∨
    (s.params.memCoherent = false ∧ anyHas s.hostStores x.toNat = true ∧
      (s.isBusy = true → Region.has s.buffer x.toNat = false) ∧
      ∃ r rest, (s.inputs = .host (.writeBack r) :: rest ∨ s.inputs = .host (.invalidate r) :: rest) ∧
        Region.has r x.toNat = true)

/-- A running command goes on unchanged until its completion, which is `exec` of the latched command, or a reset (60_exceptions R185,
R197; 10_state R31). That the engine completes at no input left, at its turn, or at a WAIT loop with no poll left, and at no other
input, is log entry 7, the model's choice. -/
def Obligations.OnlyCompletionOrResetEndsACommand : Prop :=
  ∀ (s t : State) (op : Instr) (snap : Memory), s.phase = .busy op snap → step s = .next t →
    (t.phase = .busy op snap ∧ t.width = s.width ∧ t.height = s.height ∧ t.base = s.base ∧ t.len = s.len) ∨
    (t.phase = .idle ∧ (t.done = true ∧ t.err = .ok ∧ t.width = s.width ∧ t.height = s.height ∧
      t.base = s.base ∧ t.len = s.len) ∧
      ((s.inputs = [] ∧ exec op s = .next t) ∨
        (∃ rest, s.inputs = .engine :: rest ∧ exec op (s.withInputs rest) = .next t) ∨
        ∃ rest, s.inputs = .wait 0 :: rest ∧ exec op s = .next t)) ∨
    (∃ rest, s.inputs = .reset :: rest ∧ t.phase = .idle ∧ t.status = 0)

/-- An engine that is IDLE, with no input to serve, stays as it is (60_exceptions R196; the input list is log entry 7, the
model's choice). -/
def Obligations.IdleEngineStays : Prop :=
  ∀ s : State, s.phase = .idle → s.inputs = [] → step s = .next s

/-! Issue. -/

/-- Which command words and operands each result code stands for (the table of 60_exceptions section 1, rule R181). -/
def Obligations.ValidationTableDecidesTheCode : Prop :=
  ∀ (c : Word) (p : Params) (w h b l : Word),
    let legal := c = 1 ∨ c = 2 ∨ c = 3 ∨ c = 4
    let bad := b = 0 ∨ b.toNat % 4 ≠ 0 ∨ l.toNat ≠ w.toNat * h.toNat ∨
      b.toNat + 4 * l.toNat > 4294967296 ∨ w.toNat > p.maxWidth
    (Machine.validate c p w h b l = .illegalOp ↔ ¬ legal) ∧
    (Machine.validate c p w h b l = .invalidBuffer ↔ legal ∧ bad) ∧
    (Machine.validate c p w h b l = .ok ↔ legal ∧ ¬ bad)

/-- A write of CMD while IDLE is one atomic step (60_exceptions R180): the word and the operands decide the code; a failing code is
reported and nothing else changes; otherwise the command and the buffer's bytes are latched and the engine is BUSY. WBUSY is not
changed. Where MEM_COHERENT is false and the host has not written a store to the buffer back (20_memory R59, R63), the command is
accepted all the same and the latched byte is free. Which free value it is, and how many are counted in `draws`, is log entries 4
and 8, the model's choice. -/
def Obligations.IssueIsOneAtomicStep : Prop :=
  ∀ (s : State) (c : Word) (rest : List Input), s.phase = .idle → s.inputs = .host (.wr 0x00 4 c) :: rest →
    s.overDevice = false →
    (s.validate c ≠ .ok → step s = .next { s with inputs := rest, done := true, err := s.validate c }) ∧
    (s.validate c = .ok → ∃ i snap, decodeWord c = .ok i ∧
      step s = .next { s with
        inputs := rest, phase := .busy i snap, done := false, err := .ok
        draws := if s.params.memCoherent then s.draws else s.draws + 4 * s.pixels } ∧
      ∀ k, k < 4 * s.pixels →
        readByte snap (s.base + BitVec.ofNat 32 k) =
          if s.params.memCoherent = false ∧ anyHas s.hostStores (s.base.toNat + k) = true then Config.freeByte (s.draws + k)
          else readByte s.mem (s.base + BitVec.ofNat 32 k))

/-- A word that is no command's is rejected with ILLEGAL_OP (60_exceptions R182): STATUS changes, nothing else. -/
def Obligations.IllegalWordIsRejected : Prop :=
  ∀ (s : State) (c : Word) (rest : List Input), s.phase = .idle → s.inputs = .host (.wr 0x00 4 c) :: rest →
    c ≠ 1 → c ≠ 2 → c ≠ 3 → c ≠ 4 →
    step s = .next { s with inputs := rest, done := true, err := .illegalOp }

/-- A command whose operands fail a check is rejected with INVALID_BUFFER: STATUS changes, nothing else; a zero-area command whose
BASE is good is not one of them (60_exceptions R183). -/
def Obligations.BadBufferIsRejected : Prop :=
  (∀ (s : State) (i : Instr), s.phase = .idle →
    (s.base = 0 ∨ s.base.toNat % 4 ≠ 0 ∨ s.len.toNat ≠ s.pixels ∨
      s.base.toNat + 4 * s.len.toNat > 4294967296 ∨ s.width.toNat > s.params.maxWidth) →
    exec i s = .next { s with done := true, err := .invalidBuffer }) ∧
  ∀ (s : State) (i : Instr), s.phase = .idle → s.base ≠ 0 → s.base.toNat % 4 = 0 → s.pixels = 0 → s.len = 0 →
    s.width.toNat ≤ s.params.maxWidth → ∃ t, exec i s = .next t ∧ t.isBusy = true

/-- A command whose operands pass is accepted: BUSY, DONE and ERR cleared, the command and the bytes of the buffer latched,
everything else as it was (60_exceptions R180, 20_memory R55). -/
def Obligations.GoodCommandIsAccepted : Prop :=
  ∀ (s : State) (i : Instr), s.phase = .idle → s.mem.wf → s.params.memCoherent = true →
    validateOperands s.params s.width s.height s.base s.len = .ok → s.overDevice = false →
    ∃ snap, exec i s = .next { s with phase := .busy i snap, done := false, err := .ok } ∧ snap.wf ∧
      ∀ k, k < 4 * s.pixels →
        readByte snap (s.base + BitVec.ofNat 32 k) = readByte s.mem (s.base + BitVec.ofNat 32 k)

/-- A command over a device or over the register window is refused (20_memory R64; at issue, log entry 11, the model's choice). -/
def Obligations.BufferOverDeviceIsRefused : Prop :=
  ∀ (s : State) (i : Instr), s.phase = .idle →
    validateOperands s.params s.width s.height s.base s.len = .ok → s.overDevice = true →
    exec i s = .refused .bufferOverDevice

/-- Where the platform does not back the buffer the engine is stuck (20_memory R65; at completion, log entry 11, the model's choice). -/
def Obligations.UnbackedBufferSticksTheEngine : Prop :=
  ∀ (s : State) (i op : Instr) (snap : Memory), s.phase = .busy op snap →
    anyMeets s.params.unbacked s.buffer = true → exec i s = .fault .busError

/-! Completion of each command. -/

/-- GREY's completion (41_greyscale R120): luma in red, green and blue, alpha kept; nothing else changes. Where MEM_COHERENT is false the
whole buffer becomes stale to the host, `completedOver`'s clause on engineWrites (log entry 8, the model's choice). -/
def Obligations.GreyCompletes : Prop :=
  ∀ (s : State) (op : Instr) (snap : Memory), s.phase = .busy op snap → s.canComplete →
    ∃ t, exec .grey s = .next t ∧ completedOver (4 * s.pixels) s t ∧
      ∀ i, i < s.pixels →
        let w := pixelAt snap s.base i
        let l := lumaOf s.params.greyArith w
        readWord t.mem (s.base + BitVec.ofNat 32 (4 * i)) = pack l l l (unpackAlpha w).toNat

/-- HSV's completion (42_hsv R130, R137, R138): the triples in the leading 3*N bytes, the last N bytes untouched; no other
register or byte of memory changes. Where MEM_COHERENT is false the whole buffer, the unwritten tail with it, becomes stale to the
host: `completedOver`'s clause on engineWrites (log entry 8, the model's choice). -/
def Obligations.HsvCompletes : Prop :=
  ∀ (s : State) (op : Instr) (snap : Memory), s.phase = .busy op snap → s.canComplete →
    ∃ t, exec .hsv s = .next t ∧ completedOver (3 * s.pixels) s t ∧
      ∀ i, i < s.pixels →
        let w := pixelAt snap s.base i
        readByte t.mem (s.base + BitVec.ofNat 32 (3 * i)) =
          hue s.params.hsvArith (unpackRed w) (unpackGreen w) (unpackBlue w) ∧
        readByte t.mem (s.base + BitVec.ofNat 32 (3 * i + 1)) =
          saturation s.params.hsvArith (unpackRed w) (unpackGreen w) (unpackBlue w) ∧
        readByte t.mem (s.base + BitVec.ofNat 32 (3 * i + 2)) =
          maxChannel (unpackRed w) (unpackGreen w) (unpackBlue w)

/-- EMBOSS's completion (43_emboss R150): `128` plus the largest signed difference from the clamped top-left neighbour in the snapshot,
narrowed, the pixel's own alpha kept; nothing else changes. Where MEM_COHERENT is false the
whole buffer becomes stale to the host, `completedOver`'s clause on engineWrites (log entry 8, the model's choice). -/
def Obligations.EmbossCompletes : Prop :=
  ∀ (s : State) (op : Instr) (snap : Memory), s.phase = .busy op snap → s.canComplete →
    ∃ t, exec .emboss s = .next t ∧ completedOver (4 * s.pixels) s t ∧
      ∀ row col, row < s.height.toNat → col < s.width.toNat →
        let i := row * s.width.toNat + col
        let w := pixelAt snap s.base i
        let u := pixelAt snap s.base ((row - 1) * s.width.toNat + (col - 1))
        let d : Int := max ((unpackRed w).toNat - (unpackRed u).toNat : Int)
          (max ((unpackGreen w).toNat - (unpackGreen u).toNat : Int)
            ((unpackBlue w).toNat - (unpackBlue u).toNat : Int))
        let gl := ((128 + d) % 256).toNat
        readWord t.mem (s.base + BitVec.ofNat 32 (4 * i)) = pack gl gl gl (unpackAlpha w).toNat

/-- BLUR's completion (44_blur R165): each channel, alpha too, the blur sum over the snapshot divided by 256; nothing else changes.
Where MEM_COHERENT is false the whole buffer becomes stale to the host, `completedOver`'s clause on engineWrites (log entry 8, the
model's choice). -/
def Obligations.BlurCompletes : Prop :=
  ∀ (s : State) (op : Instr) (snap : Memory), s.phase = .busy op snap → s.canComplete →
    ∃ t, exec .blur s = .next t ∧ completedOver (4 * s.pixels) s t ∧
      ∀ i, i < s.pixels →
        let px := pixelAt snap s.base
        let o := fun ch => min 255 (blurSum px s.width.toNat s.height.toNat ch i / 256)
        readWord t.mem (s.base + BitVec.ofNat 32 (4 * i)) =
          pack (o unpackRed) (o unpackGreen) (o unpackBlue) (o unpackAlpha)

/-- After GREY every pixel has equal colour channels and its old alpha, in both modes (41_greyscale R123). -/
def Obligations.GreyLeavesGreyPixels : Prop :=
  ∀ (s : State) (op : Instr) (snap : Memory), s.phase = .busy op snap → s.canComplete →
    ∃ t, exec .grey s = .next t ∧
      ∀ i, i < s.pixels →
        let p := pixelAt t.mem s.base i
        unpackRed p = unpackGreen p ∧ unpackGreen p = unpackBlue p ∧
          unpackAlpha p = unpackAlpha (pixelAt snap s.base i)

/-- After HSV the last N bytes hold the snapshot's bytes (42_hsv R138). -/
def Obligations.HsvTailHoldsTheSnapshot : Prop :=
  ∀ (s : State) (op : Instr) (snap : Memory), s.phase = .busy op snap → s.Inv → s.canComplete →
    s.params.memCoherent = true →
    ∃ t, exec .hsv s = .next t ∧
      ∀ k, 3 * s.pixels ≤ k → k < 4 * s.pixels →
        readByte t.mem (s.base + BitVec.ofNat 32 k) = readByte snap (s.base + BitVec.ofNat 32 k)

/-! Whole runs. -/

/-- From a CMD write to the completion: two engine steps make of the buffer what the command's rule says; every byte outside it, the
operand registers, WBUSY, the parameters and the host's side stay as they were (60_exceptions R180, R185; 20_memory R55, R56). -/
def Obligations.CommandTransformsTheBuffer : Prop :=
  ∀ (s : State) (i : Instr) (rest : List Input), s.Inv → s.phase = .idle → s.params.memCoherent = true →
    s.inputs = .host (.wr 0x00 4 (encode i)) :: .engine :: rest →
    validateOperands s.params s.width s.height s.base s.len = .ok → s.overDevice = false →
    anyMeets s.params.unbacked s.buffer = false →
    ∃ u t, step s = .next u ∧ u.isBusy = true ∧ u.done = false ∧ u.err = .ok ∧ step u = .next t ∧
      t.phase = .idle ∧ t.done = true ∧ t.err = .ok ∧ t.inputs = rest ∧ transformedBy i s t ∧
      t.width = s.width ∧ t.height = s.height ∧ t.base = s.base ∧ t.len = s.len ∧ t.wbusy = s.wbusy ∧
      t.params = s.params ∧ t.rdata = s.rdata ∧ t.hostStores = s.hostStores ∧ t.engineWrites = s.engineWrites ∧
      ∀ x : Word, s.outside (4 * s.pixels) x → readByte t.mem x = readByte s.mem x

/-- A zero-area command is accepted, completes OK and changes no byte of memory (60_exceptions R181, 90_conflicts C7). -/
def Obligations.ZeroAreaCommandChangesNoMemory : Prop :=
  ∀ (s : State) (i : Instr) (rest : List Input), s.phase = .idle →
    s.inputs = .host (.wr 0x00 4 (encode i)) :: .engine :: rest →
    s.base ≠ 0 → s.base.toNat % 4 = 0 → s.pixels = 0 → s.len = 0 → s.width.toNat ≤ s.params.maxWidth →
    ∃ u t, step s = .next u ∧ u.isBusy = true ∧ u.mem = s.mem ∧ step u = .next t ∧ t.phase = .idle ∧
      t.done = true ∧ t.err = .ok ∧ t.mem = s.mem

/-- The bytes a command stores are a function of the command, W, H, the snapshot's pixels and the two arithmetic modes; where the
buffer lies and what else memory holds make no difference (20_memory R57). The last clause takes in the tail HSV does not write. -/
def Obligations.ResultDependsOnlyOnTheSnapshot : Prop :=
  ∀ (i op₁ op₂ : Instr) (snap₁ snap₂ : Memory) (s₁ s₂ t₁ t₂ : State),
    s₁.phase = .busy op₁ snap₁ → s₂.phase = .busy op₂ snap₂ → s₁.canComplete → s₂.canComplete →
    s₁.params.greyArith = s₂.params.greyArith → s₁.params.hsvArith = s₂.params.hsvArith →
    s₁.width = s₂.width → s₁.height = s₂.height →
    (∀ k, k < s₁.pixels → pixelAt snap₁ s₁.base k = pixelAt snap₂ s₂.base k) →
    exec i s₁ = .next t₁ → exec i s₂ = .next t₂ →
    (∀ k, k < (if i = .hsv then 3 * s₁.pixels else 4 * s₁.pixels) →
      readByte t₁.mem (s₁.base + BitVec.ofNat 32 k) = readByte t₂.mem (s₂.base + BitVec.ofNat 32 k)) ∧
    (s₁.Inv → s₂.Inv → s₁.params.memCoherent = true → s₂.params.memCoherent = true →
      ∀ k, k < 4 * s₁.pixels →
        readByte t₁.mem (s₁.base + BitVec.ofNat 32 k) = readByte t₂.mem (s₂.base + BitVec.ofNat 32 k))

/-- The host's WAIT loop (30_encoding R77). While IDLE it is one read of STATUS; a poll while BUSY reads STATUS with BUSY = 1 and goes
round again, nothing else changed; and from BUSY it ends: after its polls the engine completes, and the last read of STATUS shows
BUSY = 0 and DONE = 1 (60_exceptions R185, 70_reset R209). How many polls come before the engine's turn is data of the input (log
entry 7), and that a read's data stands in `rdata` is log entry 6: the model's choices. -/
def Obligations.WaitLoopEndsWithTheCompletion : Prop :=
  (∀ (n : Nat) (s : State) (rest : List Input), s.inputs = .wait n :: rest → s.phase = .idle →
    step s = .next { s with inputs := rest, rdata := s.status } ∧ s.status.getLsbD 0 = false) ∧
  (∀ (n : Nat) (s : State) (rest : List Input), s.inputs = .wait (n + 1) :: rest → s.isBusy = true →
    step s = .next { s with inputs := .wait n :: rest, rdata := s.status } ∧ s.status.getLsbD 0 = true) ∧
  ∀ (n : Nat) (s : State) (op : Instr) (snap : Memory) (rest : List Input), s.phase = .busy op snap →
    s.inputs = .wait n :: rest → anyMeets s.params.unbacked s.buffer = false →
    ∃ t, Host.Core.run Sys2Proof.core (n + 2) s = .next t ∧ t.phase = .idle ∧ t.inputs = rest ∧ t.done = true ∧
      t.err = .ok ∧ t.rdata = t.status ∧ t.rdata.getLsbD 0 = false ∧ t.rdata.getLsbD 1 = true

/-! The register window. -/

/-- The fields of STATUS, and the codes of ERR (10_state R25; 60_exceptions R181, R182, R183). -/
def Obligations.StatusWordFields : Prop :=
  ∀ s : State,
    s.status.getLsbD 0 = s.isBusy ∧ s.status.getLsbD 1 = s.done ∧
    s.status.extractLsb' 2 2 = errCode s.err ∧
    errCode .ok = 0b00 ∧ errCode .invalidBuffer = 0b01 ∧ errCode .illegalOp = 0b10 ∧
    s.status.getLsbD 4 = s.wbusy ∧ s.status.toNat < 32 ∧
    s.status.extractLsb' 2 2 ≠ 0b11

/-- A STATUS write clears DONE and WBUSY where it writes 1 and changes nothing else, in either phase (10_state R25). -/
def Obligations.StatusWriteClearsOnes : Prop :=
  ∀ (s : State) (v : Word) (rest : List Input), s.inputs = .host (.wr 0x04 4 v) :: rest →
    step s = .next { s with
      inputs := rest
      done := if v.getLsbD 1 then false else s.done
      wbusy := if v.getLsbD 4 then false else s.wbusy }

/-- WIDTH, HEIGHT, BASE and LEN take the value written while IDLE (10_state R26 to R29); the reserved slots take none. -/
def Obligations.OperandWritesWhileIdle : Prop :=
  ∀ (s : State) (v : Word) (rest : List Input), s.phase = .idle →
    (s.inputs = .host (.wr 0x08 4 v) :: rest → step s = .next { s with inputs := rest, width := v }) ∧
    (s.inputs = .host (.wr 0x0C 4 v) :: rest → step s = .next { s with inputs := rest, height := v }) ∧
    (s.inputs = .host (.wr 0x10 4 v) :: rest → step s = .next { s with inputs := rest, base := v }) ∧
    (s.inputs = .host (.wr 0x14 4 v) :: rest → step s = .next { s with inputs := rest, len := v }) ∧
    (s.inputs = .host (.wr 0x18 4 v) :: rest → step s = .next { s with inputs := rest }) ∧
    (s.inputs = .host (.wr 0x1C 4 v) :: rest → step s = .next { s with inputs := rest })

/-- While BUSY a write of CMD, WIDTH, HEIGHT, BASE or LEN only sets WBUSY; STATUS and the reserved slots are written as ever
(60_exceptions R188). -/
def Obligations.WritesWhileBusyAreDropped : Prop :=
  ∀ (s : State) (off : Nat) (v : Word) (rest : List Input), s.isBusy = true →
    s.inputs = .host (.wr off 4 v) :: rest →
    (off ∈ [0x00, 0x08, 0x0C, 0x10, 0x14] → step s = .next { s with inputs := rest, wbusy := true }) ∧
    (off = 0x04 → step s = .next ((s.withInputs rest).writeStatus v)) ∧
    (off ∈ [0x18, 0x1C] → step s = .next { s with inputs := rest })

/-- A register read returns what the register holds and changes nothing else, in either phase; a register transaction that is not an
aligned 32-bit access of a slot is refused (10_state R30). The data returned stands in `rdata` (log entry 6). -/
def Obligations.RegisterReadsHaveNoSideEffect : Prop :=
  ∀ (s : State) (off size : Nat) (rest : List Input),
    (s.inputs = .host (.rd off size) :: rest →
      (off % 4 = 0 ∧ off < 32 ∧ size = 4 →
        step s = .next { s with
          inputs := rest
          rdata := if off = 0x04 then s.status else if off = 0x08 then s.width else if off = 0x0C then s.height
            else if off = 0x10 then s.base else if off = 0x14 then s.len else 0 }) ∧
      (¬ (off % 4 = 0 ∧ off < 32 ∧ size = 4) → step s = .refused .windowAccess)) ∧
    ∀ v : Word, s.inputs = .host (.wr off size v) :: rest → ¬ (off % 4 = 0 ∧ off < 32 ∧ size = 4) →
      step s = .refused .windowAccess

/-- A 32-bit host load or store at REG_BASE + offset is the register transaction at that offset (10_state R23; DEDUCED,
log entry 9); a host load or store that touches the window in any other way is refused (10_state R30; DEDUCED, log entry 9). That
alignment is the offset's, also where REG_BASE is no multiple of 4, is log entry 9, the model's choice. -/
def Obligations.WindowStandsAtRegBase : Prop :=
  (∀ (s : State) (off : Nat) (v : Word) (rest : List Input), off % 4 = 0 → off < 32 →
    s.params.regBase + off + 4 ≤ 4294967296 →
    step (s.withInputs (.host (.ld32 (BitVec.ofNat 32 (s.params.regBase + off))) :: rest)) =
      step (s.withInputs (.host (.rd off 4) :: rest)) ∧
    step (s.withInputs (.host (.st32 (BitVec.ofNat 32 (s.params.regBase + off)) v) :: rest)) =
      step (s.withInputs (.host (.wr off 4 v) :: rest))) ∧
  ∀ (s : State) (a v : Word) (rest : List Input),
    (s.params.regBase ≤ a.toNat → a.toNat < s.params.regBase + 32 →
      step (s.withInputs (.host (.ld8 a) :: rest)) = .refused .windowAccess) ∧
    (s.params.regBase < a.toNat + 4 → a.toNat < s.params.regBase + 32 → a.toNat + 4 ≤ 4294967296 →
      (a.toNat < s.params.regBase ∨ (a.toNat - s.params.regBase) % 4 ≠ 0) →
      step (s.withInputs (.host (.ld32 a) :: rest)) = .refused .windowAccess ∧
      step (s.withInputs (.host (.st32 a v) :: rest)) = .refused .windowAccess)

/-! Buffer memory. -/

/-- Little-endian words, and the channels of a pixel as bytes (20_memory R53). -/
def Obligations.MemoryIsLittleEndian : Prop :=
  ∀ (m : Memory) (a : Word),
    (readWord m a).toNat = (readByte m a).toNat + (readByte m (a + 1)).toNat * 2 ^ 8 +
      (readByte m (a + 2)).toNat * 2 ^ 16 + (readByte m (a + 3)).toNat * 2 ^ 24 ∧
    unpackRed (readWord m a) = readByte m a ∧ unpackGreen (readWord m a) = readByte m (a + 1) ∧
    unpackBlue (readWord m a) = readByte m (a + 2) ∧ unpackAlpha (readWord m a) = readByte m (a + 3)

/-- ST32 then LD32 and LD8 (30_encoding R76) while IDLE on a coherent platform: the word stored is read back, an LD8 of its
address reads its low byte; every other byte of memory and every register but the data returned (`rdata`, log entry 6) is as it was.
(Also right after a completion, with no STATUS read between: log entry 14, the model's choice.) -/
def Obligations.StoreThenLoadReturnsTheWord : Prop :=
  ∀ (s : State) (a v : Word) (rest : List Input), s.mem.wf → s.phase = .idle → s.params.memCoherent = true →
    target s.params a 4 = .memory → s.inputs = .host (.st32 a v) :: .host (.ld32 a) :: rest →
    ∃ u, step s = .next u ∧ step u = .next { u with inputs := rest, rdata := v } ∧
      (∀ x : Word, x.toNat < a.toNat ∨ a.toNat + 4 ≤ x.toNat → readByte u.mem x = readByte s.mem x) ∧
      readByte u.mem a = v.extractLsb' 0 8 ∧ u = { s with mem := u.mem, inputs := .host (.ld32 a) :: rest } ∧
      step (u.withInputs (.host (.ld8 a) :: rest)) =
        .next { u with inputs := rest, rdata := (v.extractLsb' 0 8).setWidth 32 }

/-- LD8 and LD32 of buffer memory (30_encoding R76), in either phase: memory's byte with zeros above (log entry 6), memory's word;
nothing else changes. Not for a byte of a running command's buffer (20_memory R58), nor, where MEM_COHERENT is false, for one that
the engine wrote and the host has not invalidated (20_memory R63, log entry 8). That a load returns the result of a completed command
also before any STATUS read has shown BUSY = 0, where 20_memory R59 promises nothing, is log entry 14, the model's choice. -/
def Obligations.HostLoadReturnsMemory : Prop :=
  ∀ (s : State) (a : Word) (rest : List Input),
    let settled := fun x => (s.isBusy = true → Region.has s.buffer x = false) ∧
      (s.params.memCoherent = true ∨ anyHas s.engineWrites x = false)
    (s.inputs = .host (.ld8 a) :: rest → target s.params a 1 = .memory → settled a.toNat →
      step s = .next { s with inputs := rest, rdata := (readByte s.mem a).setWidth 32 }) ∧
    (s.inputs = .host (.ld32 a) :: rest → target s.params a 4 = .memory → (∀ k, k < 4 → settled (a.toNat + k)) →
      step s = .next { s with inputs := rest, rdata := readWord s.mem a })

/-- ST32 of buffer memory (30_encoding R76), in either phase, outside a running command's buffer (20_memory R58): its word is stored,
every other byte and every register stays. Where MEM_COHERENT is false its four bytes are then pending until written back, and no
longer stale (20_memory R63; the two lists are log entry 8, the model's choice). -/
def Obligations.HostStoreStoresItsWord : Prop :=
  ∀ (s : State) (a v : Word) (rest : List Input), s.mem.wf → s.inputs = .host (.st32 a v) :: rest →
    target s.params a 4 = .memory →
    (s.isBusy = true → ∀ k, k < 4 → Region.has s.buffer (a.toNat + k) = false) →
    ∃ t, step s = .next t ∧
      t = { s with inputs := rest, mem := t.mem, hostStores := t.hostStores, engineWrites := t.engineWrites } ∧
      readWord t.mem a = v ∧
      (∀ x : Word, x.toNat < a.toNat ∨ a.toNat + 4 ≤ x.toNat → readByte t.mem x = readByte s.mem x) ∧
      (s.params.memCoherent = true → t.hostStores = s.hostStores ∧ t.engineWrites = s.engineWrites) ∧
      (s.params.memCoherent = false → ∀ x : Nat,
        (anyHas t.hostStores x = true ↔ (a.toNat ≤ x ∧ x < a.toNat + 4) ∨ anyHas s.hostStores x = true) ∧
        (anyHas t.engineWrites x = true ↔ ¬ (a.toNat ≤ x ∧ x < a.toNat + 4) ∧ anyHas s.engineWrites x = true))

/-- While BUSY a host store into the buffer is the fault hostRace and a host load of it returns free values (20_memory R58,
70_reset R204): byte by byte, so that the bytes of an LD32 beside the buffer are memory's, but where MEM_COHERENT is false and they
are stale (20_memory R63, log entry 8). Which free values a load takes and how many it counts is log entry 4, LD8's zeros above its
byte are log entry 6: the model's choices. -/
def Obligations.HostAccessToARunningBuffer : Prop :=
  ∀ (s : State) (a v : Word) (rest : List Input), s.isBusy = true →
    (s.inputs = .host (.st32 a v) :: rest → target s.params a 4 = .memory →
      (∃ k, k < 4 ∧ Region.has s.buffer (a.toNat + k) = true) → step s = .fault .hostRace) ∧
    (s.inputs = .host (.ld8 a) :: rest → target s.params a 1 = .memory → Region.has s.buffer a.toNat = true →
      step s = .next { s with inputs := rest, rdata := (Config.freeByte s.draws).setWidth 32, draws := s.draws + 1 }) ∧
    (s.inputs = .host (.ld32 a) :: rest → target s.params a 4 = .memory →
      let byte := fun k =>
        if Region.has s.buffer (a.toNat + k) = true ∨
          (s.params.memCoherent = false ∧ anyHas s.engineWrites (a.toNat + k) = true) then Config.freeByte (s.draws + k)
        else readByte s.mem (a + BitVec.ofNat 32 k)
      ∃ t, step s = .next t ∧ t.rdata = wordOfBytes (byte 0) (byte 1) (byte 2) (byte 3) ∧
        t = { s with inputs := rest, rdata := t.rdata, draws := t.draws })

/-- A host load or store that reaches no buffer memory stops by name: past the last byte (10_state R38), a device (20_memory R64),
an address the platform does not back (20_memory R65). Which accesses stop so is log entries 9 and 11, the model's choice. An LD8
is never past the last byte. -/
def Obligations.HostAccessOutsideMemoryStops : Prop :=
  ∀ (s : State) (a v : Word) (n : Nat) (rest : List Input),
    (s.inputs = .host (.ld8 a) :: rest ∧ n = 1) ∨ (s.inputs = .host (.ld32 a) :: rest ∧ n = 4) ∨
      (s.inputs = .host (.st32 a v) :: rest ∧ n = 4) →
    (a.toNat + n > 4294967296 → step s = .fault .outsideAddressSpace) ∧
    (a.toNat + n ≤ 4294967296 → Region.meets ⟨a.toNat, n⟩ (windowRegion s.params) = false →
      (anyMeets s.params.devices ⟨a.toNat, n⟩ = true → step s = .refused .deviceAccess) ∧
      (anyMeets s.params.devices ⟨a.toNat, n⟩ = false → anyMeets s.params.unbacked ⟨a.toNat, n⟩ = true →
        step s = .fault .busError))

/-! Cache maintenance (20_memory R63). What is free before it, and what it leaves where the host left a duty out, is log entry 8, the
model's choice. -/

/-- Without coherence a byte of a host store not yet written back is free in the snapshot, and a byte the engine wrote that the host
has not invalidated is free to an LD8 and to an LD32 (20_memory R63; log entries 4, 6 and 8, the model's choices); the other bytes of
the snapshot and of the LD32 are memory's, but for those of a running command's buffer, which are free too (20_memory R58). What
IssueIsOneAtomicStep latches is this snapshot. -/
def Obligations.UnmaintainedBytesAreFree : Prop :=
  ∀ s : State, s.params.memCoherent = false →
    (s.base.toNat + 4 * s.pixels ≤ 4294967296 → ∀ k, k < 4 * s.pixels →
      readByte s.snapshot (s.base + BitVec.ofNat 32 k) =
        if anyHas s.hostStores (s.base.toNat + k) = true then Config.freeByte (s.draws + k)
        else readByte s.mem (s.base + BitVec.ofNat 32 k)) ∧
    ∀ (a : Word) (rest : List Input),
      (s.inputs = .host (.ld8 a) :: rest → target s.params a 1 = .memory → anyHas s.engineWrites a.toNat = true →
        step s = .next { s with inputs := rest, rdata := (Config.freeByte s.draws).setWidth 32, draws := s.draws + 1 }) ∧
      (s.inputs = .host (.ld32 a) :: rest → target s.params a 4 = .memory →
        (∃ k, k < 4 ∧ anyHas s.engineWrites (a.toNat + k) = true) →
        let byte := fun k =>
          if anyHas s.engineWrites (a.toNat + k) = true ∨ (s.isBusy = true ∧ Region.has s.buffer (a.toNat + k) = true) then
            Config.freeByte (s.draws + k)
          else readByte s.mem (a + BitVec.ofNat 32 k)
        step s = .next { s with
          inputs := rest, rdata := wordOfBytes (byte 0) (byte 1) (byte 2) (byte 3), draws := s.draws + 4 })

/-- Without coherence: after a write-back over every pending store of the host to the buffer, a command's snapshot is memory; and
memory is as the host left it at every byte but one the engine wrote over a store that was pending (20_memory R59, R63). So a store
over a result the host never read is visible to the next command once it is written back. -/
def Obligations.WriteBackMakesStoresVisible : Prop :=
  ∀ (s : State) (r : Region) (rest : List Input), s.params.memCoherent = false → s.phase = .idle → s.mem.wf →
    s.base.toNat + 4 * s.pixels ≤ 4294967296 →
    (∀ k, k < 4 * s.pixels → anyHas s.hostStores (s.base.toNat + k) = true → Region.has r (s.base.toNat + k) = true) →
    s.inputs = .host (.writeBack r) :: rest →
    ∃ t, step s = .next t ∧
      t = { s with inputs := rest, mem := t.mem, draws := t.draws, hostStores := t.hostStores } ∧
      ∀ k, k < 4 * s.pixels →
        anyHas t.hostStores (s.base.toNat + k) = false ∧
        readByte t.snapshot (s.base + BitVec.ofNat 32 k) = readByte t.mem (s.base + BitVec.ofNat 32 k) ∧
        (anyHas s.hostStores (s.base.toNat + k) = false ∨ anyHas s.engineWrites (s.base.toNat + k) = false →
          readByte t.mem (s.base + BitVec.ofNat 32 k) = readByte s.mem (s.base + BitVec.ofNat 32 k))

/-- Without coherence: after an invalidation, an LD32 while IDLE returns memory where each byte was invalidated now or is not stale,
and no store to it was pending: the lines may be invalidated in pieces (20_memory R59, R63). No STATUS read is asked for: log entry 14,
the model's choice. -/
def Obligations.InvalidationMakesResultsVisible : Prop :=
  ∀ (s : State) (r : Region) (a : Word) (rest : List Input), s.params.memCoherent = false → s.phase = .idle →
    s.mem.wf → target s.params a 4 = .memory →
    (∀ k, k < 4 → anyHas s.hostStores (a.toNat + k) = false ∧
      (Region.has r (a.toNat + k) = true ∨ anyHas s.engineWrites (a.toNat + k) = false)) →
    s.inputs = .host (.invalidate r) :: .host (.ld32 a) :: rest →
    ∃ t, step s = .next t ∧
      t = { s with
        inputs := .host (.ld32 a) :: rest, mem := t.mem, draws := t.draws
        hostStores := t.hostStores, engineWrites := t.engineWrites } ∧
      step t = .next { t with inputs := rest, rdata := readWord s.mem a }

/-- Maintenance byte by byte (20_memory R63): where MEM_COHERENT is true it changes nothing. Elsewhere a write-back of a range ends
what was pending in it, an invalidation ends what was pending and what was stale in it, but in a running command's buffer neither
ends anything (log entry 8, the model's choice: it is no HostRace); memory keeps every byte but a pending one that the engine wrote
after the store (write-back) or that is invalidated unwritten: that becomes a free value. -/
def Obligations.MaintenanceSettlesByteByByte : Prop :=
  ∀ (s : State) (r : Region) (rest : List Input),
    s.inputs = .host (.writeBack r) :: rest ∨ s.inputs = .host (.invalidate r) :: rest →
    (s.params.memCoherent = true → step s = .next { s with inputs := rest }) ∧
    (s.params.memCoherent = false → s.mem.wf →
      let back := s.inputs = .host (.writeBack r) :: rest
      let reached := fun x => Region.has r x = true ∧ (s.isBusy = true → Region.has s.buffer x = false)
      ∃ t, step s = .next t ∧
        t = { s with
          inputs := rest, mem := t.mem, draws := t.draws
          hostStores := t.hostStores, engineWrites := t.engineWrites } ∧
        (∀ x : Nat, anyHas t.hostStores x = true ↔ anyHas s.hostStores x = true ∧ ¬ reached x) ∧
        (∀ x : Nat, anyHas t.engineWrites x = true ↔ anyHas s.engineWrites x = true ∧ (back ∨ ¬ reached x)) ∧
        ∀ x : Word,
          let lost := anyHas s.hostStores x.toNat = true ∧ reached x.toNat ∧
            (back → anyHas s.engineWrites x.toNat = true)
          (¬ lost → readByte t.mem x = readByte s.mem x) ∧
          (lost → ∃ d, s.draws ≤ d ∧ d < t.draws ∧ readByte t.mem x = Config.freeByte d))

/-! pixel_codec. -/

/-- The round-trip law (40_pixel_codec R105), both halves. -/
def Obligations.PackUnpackRoundTrip : Prop :=
  (∀ r g b a : Byte,
    let w := pack r.toNat g.toNat b.toNat a.toNat
    unpackRed w = r ∧ unpackGreen w = g ∧ unpackBlue w = b ∧ unpackAlpha w = a) ∧
  ∀ w : Word, pack (unpackRed w).toNat (unpackGreen w).toNat (unpackBlue w).toNat (unpackAlpha w).toNat = w

/-- `truncate_channel` over the rationals (40_pixel_codec R108), and its value for BLUR's sums. -/
def Obligations.TruncateChannelDropsTheFraction : Prop :=
  (∀ v f b : Ratio, 0 < v.den → 0 < f.den → 0 < b.den →
    let t : ℚ := (f.num / f.den : ℚ) * (v.num / v.den : ℚ) + (b.num / b.den : ℚ)
    ((truncateChannel v f b).toNat : ℤ) = ⌊max 0 (min t 255)⌋) ∧
  ∀ n : Nat, n ≤ 65280 → (truncateChannel ⟨n, 1⟩ ⟨1, 256⟩ ⟨0, 1⟩).toNat = min 255 (n / 256) ∧ n / 256 ≤ 255

/-- The extrema of three channels (40_pixel_codec R106, R107) and their difference (42_hsv R131). -/
def Obligations.ExtremaOfThreeChannels : Prop :=
  ∀ r g b : Byte,
    (maxChannel r g b).toNat = max r.toNat (max g.toNat b.toNat) ∧
    (minChannel r g b).toNat = min r.toNat (min g.toNat b.toNat) ∧
    (hsvDiff r g b).toNat = (maxChannel r g b).toNat - (minChannel r g b).toNat ∧
    (minChannel r g b).toNat ≤ (maxChannel r g b).toNat

/-! GREY. -/

/-- Luma under EXACT (41_greyscale R121): the 15-bit accumulator holds the sum, the luma is its floor division by 100. -/
def Obligations.ExactLumaIsTheFloorOfTheSum : Prop :=
  ∀ r g b : Byte,
    let acc := 21 * r.toNat + 72 * g.toNat + 7 * b.toNat
    acc ≤ 25500 ∧ (lumaAcc r g b).toNat = acc ∧ (lumaExact r g b).toNat = acc / 100 ∧
    acc / 100 ≤ max r.toNat (max g.toNat b.toNat)

/-- Luma under BINARY64 is EXACT's, or one less where the sum is a multiple of 100 (41_greyscale R122). -/
def Obligations.BinaryLumaIsExactOrOneLess : Prop :=
  ∀ r g b : Byte,
    lumaBinary64 r g b = lumaExact r g b ∨
    ((lumaBinary64 r g b).toNat + 1 = (lumaExact r g b).toNat ∧
      (21 * r.toNat + 72 * g.toNat + 7 * b.toNat) % 100 = 0)

/-- The roundings of BINARY64 (41_greyscale R122), at scale 2^-56: `fl n` is the multiple of the last place of `n` nearest to `n`, on a
tie the even one, with 53 significant bits; the constants are the 53-bit numbers nearest to 0.21, 0.72 and 0.07; and luma is the
rounded sum of the rounded products with its fraction dropped, which is below 256. -/
def Obligations.BinaryLumaRoundsToNearestEven : Prop :=
  (∀ n : Nat, n < 2 ^ 53 → fl n = n) ∧
  (∀ n e : Nat, 2 ^ (52 + e) ≤ n → n < 2 ^ (53 + e) →
    ∃ q, fl n = q * 2 ^ e ∧ 2 ^ 52 ≤ q ∧ q ≤ 2 ^ 53 ∧ 2 * fl n ≤ 2 * n + 2 ^ e ∧ 2 * n ≤ 2 * fl n + 2 ^ e ∧
      (2 * fl n = 2 * n + 2 ^ e ∨ 2 * n = 2 * fl n + 2 ^ e → q % 2 = 0)) ∧
  (∀ x ∈ [(c21, 21, 1), (c72, 72, 3), (c07, 7, 0)],
    ∃ q, x.1 = q * 2 ^ x.2.2 ∧ 2 ^ 52 ≤ q ∧ q < 2 ^ 53 ∧
      2 * (100 * x.1) < 2 * (x.2.1 * 2 ^ 56) + 100 * 2 ^ x.2.2 ∧
      2 * (x.2.1 * 2 ^ 56) < 2 * (100 * x.1) + 100 * 2 ^ x.2.2) ∧
  ∀ r g b : Byte,
    (lumaBinary64 r g b).toNat =
      fl (fl (fl (c21 * r.toNat) + fl (c72 * g.toNat)) + fl (c07 * b.toNat)) / 2 ^ 56

/-- GREY twice is GREY once under EXACT, at every pixel (41_greyscale R124). -/
def Obligations.ExactGreyIsIdempotent : Prop :=
  ∀ w : Word, greyPixel .exact (greyPixel .exact w) = greyPixel .exact w

/-! HSV. -/

/-- Hue under U8_WRAP (42_hsv R132, R133): the branches in order, every narrowing modulo 256. -/
def Obligations.WrappingHueFollowsTheBranches : Prop :=
  ∀ r g b : Byte,
    let cmax := max r.toNat (max g.toNat b.toNat)
    let diff := cmax - min r.toNat (min g.toNat b.toNat)
    let q := fun x y : Nat => (x + 256 - y) % 256 / diff
    (hue .u8Wrap r g b).toNat =
      (if diff = 0 then 0
      else if cmax = r.toNat then 43 * q g.toNat b.toNat % 256
      else if cmax = g.toNat then (85 + 43 * q b.toNat r.toNat) % 256
      else (371 + 43 * q r.toNat g.toNat) % 256) ∧
    ∀ x ∈ [r.toNat, g.toNat, b.toNat], ∀ y ∈ [r.toNat, g.toNat, b.toNat],
      q x y ≤ 255 ∧ (y ≤ x → x - y < diff → q x y = 0)

/-- Hue under INT (42_hsv R132, R134): signed differences, division toward zero, one narrowing; and the hues that can come out. -/
def Obligations.SignedHueFollowsTheBranches : Prop :=
  ∀ r g b : Byte,
    let cmax : Int := max (r.toNat : Int) (max (g.toNat : Int) b.toNat)
    let diff : Int := cmax - min (r.toNat : Int) (min (g.toNat : Int) b.toNat)
    let q := fun x y : Byte => Int.tdiv ((x.toNat : Int) - y.toNat) diff
    let out := (hue .int r g b).toNat
    (out : Int) =
      (if diff = 0 then 0
      else if cmax = r.toNat then 43 * q g b % 256
      else if cmax = g.toNat then (85 + 43 * q b r) % 256
      else (200 + 171 + 43 * q r g) % 256) ∧
    (diff ≠ 0 →
      (cmax = r.toNat → out ∈ [0, 43, 213]) ∧
      (cmax ≠ r.toNat → cmax = g.toNat → out ∈ [42, 85, 128]) ∧
      (cmax ≠ r.toNat → cmax ≠ g.toNat → out ∈ [72, 115, 158])) ∧
    (diff ≠ 0 → ∀ x ∈ [r, g, b], ∀ y ∈ [r, g, b],
      q x y ∈ [-1, 0, 1] ∧
      (q x y = 1 → (x.toNat : Int) = cmax ∧ (y.toNat : Int) = cmax - diff) ∧
      (q x y = -1 → (y.toNat : Int) = cmax ∧ (x.toNat : Int) = cmax - diff))

/-- Saturation in both modes (42_hsv R135). -/
def Obligations.SaturationInBothModes : Prop :=
  ∀ r g b : Byte,
    let cmax := max r.toNat (max g.toNat b.toNat)
    let diff := cmax - min r.toNat (min g.toNat b.toNat)
    (cmax = 0 → diff = 0 ∧ (saturation .u8Wrap r g b).toNat = 0 ∧ (saturation .int r g b).toNat = 0) ∧
    (cmax ≠ 0 →
      (saturation .u8Wrap r g b).toNat = 255 * diff % 256 / cmax ∧
      (saturation .int r g b).toNat = 255 * diff / cmax ∧ 255 * diff / cmax ≤ 255) ∧
    255 * diff % 256 = (if diff = 0 then 0 else 256 - diff)

/-! EMBOSS. -/

/-- The neighbour's index (43_emboss R151). -/
def Obligations.NeighbourIsTheClampedTopLeft : Prop :=
  ∀ w h row col : Nat, row < h → col < w →
    let i := row * w + col
    topLeft w i = (max (row : Int) 1 - 1).toNat * w + (max (col : Int) 1 - 1).toNat ∧
    topLeft w i ≤ i ∧ (topLeft w i = i ↔ row = 0 ∧ col = 0) ∧ topLeft w i < w * h

/-- The differences and the narrowing of the grey level (43_emboss R152, R153). -/
def Obligations.EmbossLevelWraps : Prop :=
  ∀ w u : Word,
    let d := fun ch : Word → Byte => ((ch w).toNat : Int) - (ch u).toNat
    (∀ ch : Word → Byte, -255 ≤ d ch ∧ d ch ≤ 255) ∧
    diffMax w u = max (d unpackRed) (max (d unpackGreen) (d unpackBlue)) ∧
    -255 ≤ diffMax w u ∧ diffMax w u ≤ 255 ∧
    ((embossLevel w u).toNat : Int) = (128 + diffMax w u) % 256 ∧
    (-128 ≤ diffMax w u → diffMax w u ≤ 127 → ((embossLevel w u).toNat : Int) = 128 + diffMax w u) ∧
    (128 ≤ diffMax w u → ((embossLevel w u).toNat : Int) = diffMax w u - 128) ∧
    (diffMax w u ≤ -129 → ((embossLevel w u).toNat : Int) = diffMax w u + 384)

/-! BLUR. -/

/-- The kernel is the product of the binomial row with itself and sums to 256 (44_blur R166). -/
def Obligations.KernelIsBinomial : Prop :=
  kernel = [[1, 4, 6, 4, 1], [4, 16, 24, 16, 4], [6, 24, 36, 24, 6], [4, 16, 24, 16, 4], [1, 4, 6, 4, 1]] ∧
  (∀ ky < 5, ∀ kx < 5, kernelAt ky kx = [1, 4, 6, 4, 1].getD ky 0 * [1, 4, 6, 4, 1].getD kx 0) ∧
  (kernel.map List.sum).sum = 256 ∧ ∀ ky < 5, ∀ kx < 5, kernelAt ky kx = kernelAt kx ky

/-- The 16-bit accumulator holds the whole sum: it never overflows (10_state R37). -/
def Obligations.BlurAccumulatorNeverOverflows : Prop :=
  ∀ (px : Nat → Word) (w h : Nat) (ch : Word → Byte) (i : Nat),
    (blurAcc px w h ch i).toNat = blurSum px w h ch i ∧ blurSum px w h ch i ≤ 65280

/-- Normalisation (44_blur R168): the sum over 256, never above 255; on a flat field the divisor stays 256, so the output is the
in-range weight times the level over 256, and interior pixels keep the level; the weight sums of a row or column. -/
def Obligations.FlatFieldBlursByItsWeight : Prop :=
  (∀ (px : Nat → Word) (w h : Nat) (ch : Word → Byte) (i : Nat),
    blurSum px w h ch i ≤ 65280 ∧ (blurChannel px w h ch i).toNat = blurSum px w h ch i / 256 ∧
    min 255 (blurSum px w h ch i / 256) = blurSum px w h ch i / 256) ∧
  (∀ (px : Nat → Word) (w h : Nat) (ch : Word → Byte) (c : Byte) (i : Nat), i < w * h →
    (∀ k, k < w * h → ch (px k) = c) →
    (blurChannel px w h ch i).toNat = weightSum (i / w) h * weightSum (i % w) w * c.toNat / 256 ∧
    (2 ≤ i / w → i / w + 3 ≤ h → 2 ≤ i % w → i % w + 3 ≤ w → blurChannel px w h ch i = c)) ∧
  (∀ n p, 5 ≤ n → p < n →
    weightSum p n = if p = 0 ∨ p = n - 1 then 11 else if p = 1 ∨ p = n - 2 then 15 else 16) ∧
  weightSum 0 4 = 11 ∧ weightSum 1 4 = 15 ∧ weightSum 2 4 = 15 ∧ weightSum 3 4 = 11 ∧
  weightSum 0 3 = 11 ∧ weightSum 1 3 = 14 ∧ weightSum 2 3 = 11 ∧
  weightSum 0 2 = 10 ∧ weightSum 1 2 = 10 ∧ weightSum 0 1 = 6
end

