-- ==== Sys2Proof/Laws/Memory.lean ====
section
/-! SUPPORT. What the memory operations do: each keeps the canonical form, and what a byte reads as after it. -/

namespace Sys2Proof.Machine

/-! One entry. -/

theorem lookup_put (m : Memory) (a k : Nat) (b : Byte) (h : m.wf) :
    lookup (put m a b) k = if k = a then b else lookup m k := by
  obtain ⟨hs, hc⟩ := h
  induction m with
  | nil =>
    unfold put
    split <;> simp only [lookup]
    · next hb => split <;> simp [hb]
    · by_cases hk : a = k <;> simp [hk, eq_comm]
  | cons c m ih =>
    obtain ⟨x, v⟩ := c
    rw [List.pairwise_cons] at hs
    have hm := ih hs.2 (fun c hcm => hc c (List.mem_cons_of_mem _ hcm))
    have absent : ∀ y, y ≤ x → lookup m y = unlistedByte := by
      intro y hy
      have : ∀ l : Memory, (∀ c ∈ l, x < c.1) → lookup l y = unlistedByte := by
        intro l
        induction l with
        | nil => intro _; rfl
        | cons d l ihl =>
          intro hl
          have hd := hl d (by simp)
          simp only [lookup]
          rw [if_neg (by omega)]
          exact ihl (fun c hcl => hl c (List.mem_cons_of_mem _ hcl))
      exact this m hs.1
    simp only [put]
    split
    · next hax =>
      split
      · next hb =>
        by_cases hk : k = a
        · subst hk
          simp only [lookup, if_true]
          rw [if_neg (by omega), absent k (by omega), hb]
        · simp [hk]
      · simp only [lookup]
        by_cases hk : k = a
        · simp [hk]
        · rw [if_neg (fun h => hk h.symm), if_neg hk]
    · split
      · next hax =>
        subst hax
        split
        · next hb =>
          by_cases hk : k = a
          · subst hk; simp [absent k (le_refl _), hb]
          · simp only [lookup, if_neg hk]; rw [if_neg (fun h => hk h.symm)]
        · simp only [lookup]
          by_cases hk : k = a
          · simp [hk]
          · rw [if_neg (fun h => hk h.symm), if_neg hk, if_neg (fun h => hk h.symm)]
      · simp only [lookup, hm]
        by_cases hk : k = a
        · subst hk; rw [if_neg (by omega)]
          simp
        · simp [hk]

theorem mem_put {m : Memory} {a : Nat} {b : Byte} {c : Host.Cell} (h : c ∈ put m a b) :
    c = (a, b) ∧ b ≠ unlistedByte ∨ c ∈ m := by
  induction m with
  | nil =>
    simp only [put] at h
    split at h <;> simp_all
  | cons d m ih =>
    obtain ⟨x, v⟩ := d
    simp only [put] at h
    split at h
    · split at h
      · exact .inr h
      · next hb => exact (List.mem_cons.mp h).imp (fun h => ⟨h, hb⟩) id
    · split at h
      · split at h
        · exact .inr (List.mem_cons_of_mem _ h)
        · next hb => exact (List.mem_cons.mp h).imp (fun h => ⟨h, hb⟩) (List.mem_cons_of_mem _)
      · rcases List.mem_cons.mp h with h | h
        · exact .inr (by simp [h])
        · exact (ih h).imp id (List.mem_cons_of_mem _)

theorem put_wf {m : Memory} {a : Nat} {b : Byte} (h : m.wf) (ha : a < 4294967296) : (put m a b).wf := by
  refine ⟨?_, fun c hc => ?_⟩
  · have hs := h.1
    clear h
    induction m with
    | nil => simp only [put]; split <;> simp
    | cons d m ih =>
      obtain ⟨x, v⟩ := d
      have hs' := List.pairwise_cons.mp hs
      simp only [put]
      split
      · next hax =>
        split
        · exact hs
        · refine List.pairwise_cons.mpr ⟨fun c hc => ?_, hs⟩
          rcases List.mem_cons.mp hc with rfl | hc
          · exact hax
          · exact lt_trans hax (hs'.1 c hc)
      · split
        · next hax =>
          subst hax
          split
          · exact hs'.2
          · exact List.pairwise_cons.mpr ⟨hs'.1, hs'.2⟩
        · refine List.pairwise_cons.mpr ⟨fun c hc => ?_, ih hs'.2⟩
          rcases mem_put hc with ⟨rfl, -⟩ | hc
          · show x < a
            omega
          · exact hs'.1 c hc
  · rcases mem_put hc with ⟨rfl, hb⟩ | hc
    · exact ⟨ha, hb⟩
    · exact h.2 c hc

/-! One byte. -/

theorem readByte_writeByte (m : Memory) (a x : Word) (b : Byte) (h : m.wf) :
    readByte (writeByte m a b) x = if x = a then b else readByte m x := by
  simp only [readByte, writeByte, lookup_put m _ _ b h, BitVec.toNat_inj]

theorem writeByte_wf {m : Memory} {a : Word} {b : Byte} (h : m.wf) : (writeByte m a b).wf :=
  put_wf h a.isLt

/-! A run of bytes. -/

theorem writeBytes_wf {m : Memory} (bs : List Byte) (a : Word) (h : m.wf) : (writeBytes m a bs).wf := by
  induction bs generalizing m a with
  | nil => exact h
  | cons b bs ih => exact ih (a + 1) (writeByte_wf h)

/-- A byte after a run of bytes was stored from `a` upward: the run's byte inside it, the old byte outside it. -/
theorem readByte_writeBytes (m : Memory) (a x : Word) (bs : List Byte) (h : m.wf) (hb : bs.length ≤ 4294967296) :
    readByte (writeBytes m a bs) x = (bs[(x - a).toNat]?).getD (readByte m x) := by
  induction bs generalizing m a with
  | nil => simp [writeBytes]
  | cons b bs ih =>
    simp only [List.length_cons] at hb
    rw [writeBytes, ih _ _ (writeByte_wf h) (by omega), readByte_writeByte m a x b h]
    by_cases hx : x = a
    · subst hx
      have h1 : (x - (x + 1)).toNat = 4294967295 := by
        have : x - (x + 1) = -1#32 := by bv_omega
        rw [this]; decide
      rw [h1, List.getElem?_eq_none (by omega)]
      simp
    · have h1 : (x - a).toNat = (x - (a + 1)).toNat + 1 := by
        have : x.toNat ≠ a.toNat := fun h => hx (BitVec.eq_of_toNat_eq h)
        bv_omega
      rw [h1, List.getElem?_cons_succ, if_neg hx]

theorem readByte_writeBytes_outside (m : Memory) (a x : Word) (bs : List Byte) (h : m.wf)
    (hb : bs.length ≤ 4294967296) (hx : bs.length ≤ (x - a).toNat) :
    readByte (writeBytes m a bs) x = readByte m x := by
  rw [readByte_writeBytes m a x bs h hb, List.getElem?_eq_none hx]
  rfl

theorem readByte_writeBytes_inside (m : Memory) (a x : Word) (bs : List Byte) (h : m.wf)
    (hb : bs.length ≤ 4294967296) (hx : (x - a).toNat < bs.length) :
    readByte (writeBytes m a bs) x = bs[(x - a).toNat] := by
  rw [readByte_writeBytes m a x bs h hb, List.getElem?_eq_getElem hx]
  rfl

/-! The snapshot's range. -/

theorem restrict_wf {m : Memory} {a n : Nat} (h : m.wf) : (restrict m a n).wf :=
  ⟨h.1.filter _, fun c hc => h.2 c (List.mem_of_mem_filter hc)⟩

theorem lookup_restrict (m : Memory) (a n x : Nat) :
    lookup (restrict m a n) x = if a ≤ x ∧ x < a + n then lookup m x else unlistedByte := by
  induction m with
  | nil => simp [restrict, lookup]
  | cons c m ih =>
    obtain ⟨k, b⟩ := c
    simp only [restrict] at ih ⊢
    by_cases hk : a ≤ k ∧ k < a + n
    · rw [List.filter_cons_of_pos (by simpa using hk)]
      simp only [lookup, ih]
      by_cases hx : k = x
      · subst hx; simp [hk]
      · simp [hx]
    · rw [List.filter_cons_of_neg (by simpa using hk), ih]
      simp only [lookup]
      by_cases hx : k = x
      · subst hx; simp [hk]
      · simp [hx]

theorem readByte_restrict (m : Memory) (a n : Nat) (x : Word) (h : a ≤ x.toNat ∧ x.toNat < a + n) :
    readByte (restrict m a n) x = readByte m x := by
  simp only [readByte, lookup_restrict, if_pos h]

/-! Free bytes in memory. -/

theorem writeFree_wf {m : Memory} (d : Nat) (as : List Word) (h : m.wf) : (writeFree m d as).wf := by
  induction as generalizing m d with
  | nil => exact h
  | cons a as ih => exact ih _ (writeByte_wf h)

theorem readByte_writeFree {m : Memory} (d : Nat) (as : List Word) (x : Word) (h : m.wf) (hx : x ∉ as) :
    readByte (writeFree m d as) x = readByte m x := by
  induction as generalizing m d with
  | nil => rfl
  | cons a as ih =>
    rw [List.mem_cons, not_or] at hx
    rw [writeFree, ih _ (writeByte_wf h) hx.2, readByte_writeByte _ _ _ _ h]
    exact if_neg hx.1

/-- A byte that became free holds one of the free values taken. -/
theorem readByte_writeFree_mem {m : Memory} (d : Nat) (as : List Word) (x : Word) (h : m.wf) (hx : x ∈ as) :
    ∃ e, d ≤ e ∧ e < d + as.length ∧ readByte (writeFree m d as) x = Config.freeByte e := by
  induction as generalizing m d with
  | nil => cases hx
  | cons a as ih =>
    by_cases hr : x ∈ as
    · obtain ⟨e, h1, h2, h3⟩ := ih (m := writeByte m a (Config.freeByte d)) (d + 1) (writeByte_wf h) hr
      exact ⟨e, by omega, by simp only [List.length_cons]; omega, h3⟩
    · refine ⟨d, Nat.le_refl _, by simp, ?_⟩
      rw [writeFree, readByte_writeFree _ _ _ (writeByte_wf h) hr, readByte_writeByte _ _ _ _ h]
      exact if_pos ((List.mem_cons.mp hx).resolve_right hr)

end Sys2Proof.Machine
end

