-- ==== Sys2Proof/Laws/Buffer.lean ====
section
/-! SUPPORT. Words as bytes, and what a buffer reads as after a command's result is stored into it. -/

namespace Sys2Proof.Machine

/-! Words and bytes (20_memory R53). -/

@[simp] theorem bytesOfWord_length (w : Word) : (bytesOfWord w).length = 4 := rfl

theorem wordOfBytes_bytesOfWord (w : Word) :
    wordOfBytes (w.extractLsb' 0 8) (w.extractLsb' 8 8) (w.extractLsb' 16 8) (w.extractLsb' 24 8) = w := by
  apply BitVec.eq_of_getLsbD_eq
  intro i hi
  simp only [wordOfBytes, BitVec.getLsbD_append, BitVec.getLsbD_extractLsb']
  have h : i < 8 ∨ (8 ≤ i ∧ i < 16) ∨ (16 ≤ i ∧ i < 24) ∨ (24 ≤ i ∧ i < 32) := by omega
  rcases h with h | h | h | h
  · simp [h]
  · simp [show ¬ i < 8 by omega, show i - 8 < 8 by omega, show 8 + (i - 8) = i by omega]
  · simp [show ¬ i < 8 by omega, show ¬ i - 8 < 8 by omega, show i - 8 - 8 < 8 by omega,
      show 16 + (i - 8 - 8) = i by omega]
  · simp [show ¬ i < 8 by omega, show ¬ i - 8 < 8 by omega, show ¬ i - 8 - 8 < 8 by omega,
      show i - 8 - 8 - 8 < 8 by omega, show 24 + (i - 8 - 8 - 8) = i by omega]

theorem toNat_wordOfBytes (b0 b1 b2 b3 : Byte) :
    (wordOfBytes b0 b1 b2 b3).toNat = b0.toNat + 256 * b1.toNat + 65536 * b2.toNat + 16777216 * b3.toNat := by
  have h0 := b0.isLt
  have h1 := b1.isLt
  have h2 := b2.isLt
  simp only [wordOfBytes, BitVec.toNat_append]
  rw [← Nat.shiftLeft_add_eq_or_of_lt (by omega), ← Nat.shiftLeft_add_eq_or_of_lt (by omega),
    ← Nat.shiftLeft_add_eq_or_of_lt (by omega)]
  simp only [Nat.shiftLeft_eq]
  omega

/-- A word's channels are its bytes in memory order: red, green, blue, alpha (20_memory R53). -/
theorem unpack_wordOfBytes (b0 b1 b2 b3 : Byte) :
    unpackRed (wordOfBytes b0 b1 b2 b3) = b0 ∧ unpackGreen (wordOfBytes b0 b1 b2 b3) = b1 ∧
      unpackBlue (wordOfBytes b0 b1 b2 b3) = b2 ∧ unpackAlpha (wordOfBytes b0 b1 b2 b3) = b3 := by
  have h := toNat_wordOfBytes b0 b1 b2 b3
  have h0 := b0.isLt
  have h1 := b1.isLt
  have h2 := b2.isLt
  have h3 := b3.isLt
  refine ⟨?_, ?_, ?_, ?_⟩ <;> apply BitVec.eq_of_toNat_eq <;>
    simp only [unpackRed, unpackGreen, unpackBlue, unpackAlpha, BitVec.extractLsb'_toNat,
      Nat.shiftRight_eq_div_pow, h] <;> omega

/-! A run of chunks of one length. -/

theorem length_flatMap_range (g : Nat → List Byte) (c n : Nat) (hg : ∀ i, (g i).length = c) :
    ((List.range n).flatMap g).length = c * n := by
  induction n with
  | zero => simp
  | succ n ih => rw [List.range_succ, List.flatMap_append, List.length_append, ih]; simp [hg]; ring

theorem getElem?_flatMap_range (g : Nat → List Byte) (c n i k : Nat) (hg : ∀ i, (g i).length = c)
    (hi : i < n) (hk : k < c) : ((List.range n).flatMap g)[c * i + k]? = (g i)[k]? := by
  induction n with
  | zero => omega
  | succ n ih =>
    rw [List.range_succ, List.flatMap_append]
    have hl := length_flatMap_range g c n hg
    by_cases h : i < n
    · have : c * i + k < c * n := by
        calc c * i + k < c * i + c := by omega
          _ = c * (i + 1) := by ring
          _ ≤ c * n := Nat.mul_le_mul_left c h
      rw [List.getElem?_append_left (by omega), ih h]
    · obtain rfl : i = n := by omega
      rw [List.getElem?_append_right (by omega), hl, Nat.add_sub_cancel_left]
      simp

@[simp] theorem pixelBytes_length (f : Nat → Word) (n : Nat) : (pixelBytes f n).length = 4 * n :=
  length_flatMap_range _ 4 n (fun _ => rfl)

/-! The buffer after a result. -/

/-- Byte `k` of the stored run, seen from its base. -/
theorem readByte_stored (m : Memory) (base : Word) (bs : List Byte) (k : Nat) (h : m.wf)
    (hfit : base.toNat + bs.length ≤ 4294967296) (hk : k < bs.length) :
    readByte (writeBytes m base bs) (base + BitVec.ofNat 32 k) = bs[k] := by
  have hs : (base + BitVec.ofNat 32 k - base).toNat = k := by bv_omega
  rw [readByte_writeBytes m base _ bs h (by omega), hs, List.getElem?_eq_getElem hk]
  rfl

/-- A byte outside the stored range keeps its value. -/
theorem readByte_off_stored (m : Memory) (base x : Word) (bs : List Byte) (h : m.wf)
    (hfit : base.toNat + bs.length ≤ 4294967296) (hx : x.toNat < base.toNat ∨ base.toNat + bs.length ≤ x.toNat) :
    readByte (writeBytes m base bs) x = readByte m x := by
  have hb := base.isLt
  have hxl := x.isLt
  exact readByte_writeBytes_outside m base x bs h (by omega) (by bv_omega)

/-- Pixel `i` after a result of whole words is stored (20_memory R50, R56). -/
theorem readWord_pixelBytes (m : Memory) (base : Word) (f : Nat → Word) (n i : Nat) (h : m.wf)
    (hfit : base.toNat + 4 * n ≤ 4294967296) (hi : i < n) :
    readWord (writeBytes m base (pixelBytes f n)) (base + BitVec.ofNat 32 (4 * i)) = f i := by
  have hlen := pixelBytes_length f n
  have byteAt : ∀ k, k < 4 → ∀ x : Word, x = base + BitVec.ofNat 32 (4 * i + k) →
      readByte (writeBytes m base (pixelBytes f n)) x = (bytesOfWord (f i)).getD k 0 := by
    intro k hk x hx
    subst hx
    rw [readByte_stored m base _ (4 * i + k) h (by omega) (by omega)]
    have hg := getElem?_flatMap_range (fun i => bytesOfWord (f i)) 4 n i k (fun _ => rfl) hi hk
    rw [List.getElem?_eq_getElem (by simpa [pixelBytes] using (by omega : 4 * i + k < (pixelBytes f n).length)),
      List.getElem?_eq_getElem (by simpa using hk)] at hg
    rw [List.getD_eq_getElem _ _ (by simpa using hk)]
    exact Option.some.inj hg
  rw [readWord, byteAt 0 (by omega) (base + BitVec.ofNat 32 (4 * i)) rfl,
    byteAt 1 (by omega) (base + BitVec.ofNat 32 (4 * i) + 1) (by bv_omega),
    byteAt 2 (by omega) (base + BitVec.ofNat 32 (4 * i) + 2) (by bv_omega),
    byteAt 3 (by omega) (base + BitVec.ofNat 32 (4 * i) + 3) (by bv_omega)]
  exact wordOfBytes_bytesOfWord (f i)

/-! `pack` and the unpacking functions (40_pixel_codec R100 to R104). -/

theorem toNat_pack (r g b a : Nat) (hr : r < 256) (hg : g < 256) (hb : b < 256) (ha : a < 256) :
    (pack r g b a).toNat = r + 256 * g + 65536 * b + 16777216 * a := by
  have e1 : a <<< 24 ||| b <<< 16 = a <<< 24 + b <<< 16 :=
    (Nat.shiftLeft_add_eq_or_of_lt (by rw [Nat.shiftLeft_eq]; omega) a).symm
  have e2 : (a <<< 24 + b <<< 16) ||| g <<< 8 = a <<< 24 + b <<< 16 + g <<< 8 := by
    rw [show a <<< 24 + b <<< 16 = (a * 256 + b) <<< 16 by simp only [Nat.shiftLeft_eq]; ring]
    exact (Nat.shiftLeft_add_eq_or_of_lt (by rw [Nat.shiftLeft_eq]; omega) _).symm
  have e3 : (a <<< 24 + b <<< 16 + g <<< 8) ||| r = a <<< 24 + b <<< 16 + g <<< 8 + r := by
    rw [show a <<< 24 + b <<< 16 + g <<< 8 = (a * 65536 + b * 256 + g) <<< 8 by
      simp only [Nat.shiftLeft_eq]; ring]
    exact (Nat.shiftLeft_add_eq_or_of_lt (by omega) _).symm
  rw [pack, BitVec.toNat_ofNat, e1, e2, e3]
  simp only [Nat.shiftLeft_eq]
  omega

theorem pack_eq_wordOfBytes (r g b a : Byte) : pack r.toNat g.toNat b.toNat a.toNat = wordOfBytes r g b a := by
  apply BitVec.eq_of_toNat_eq
  rw [toNat_pack _ _ _ _ r.isLt g.isLt b.isLt a.isLt, toNat_wordOfBytes]

end Sys2Proof.Machine
end

