-- ==== Sys2Proof/Laws/State.lean ====
section
/-! SUPPORT. One lemma per field per named update of State, each true by rfl. -/

namespace Sys2Proof.Machine

/-! `writeStatus` -/

@[simp] theorem State.writeStatus_params (s : State) (v : Word) : (s.writeStatus v).params = s.params := rfl
@[simp] theorem State.writeStatus_width (s : State) (v : Word) : (s.writeStatus v).width = s.width := rfl
@[simp] theorem State.writeStatus_height (s : State) (v : Word) : (s.writeStatus v).height = s.height := rfl
@[simp] theorem State.writeStatus_base (s : State) (v : Word) : (s.writeStatus v).base = s.base := rfl
@[simp] theorem State.writeStatus_len (s : State) (v : Word) : (s.writeStatus v).len = s.len := rfl
@[simp] theorem State.writeStatus_phase (s : State) (v : Word) : (s.writeStatus v).phase = s.phase := rfl
@[simp] theorem State.writeStatus_done (s : State) (v : Word) : (s.writeStatus v).done = (s.done && !v.getLsbD 1) := rfl
@[simp] theorem State.writeStatus_err (s : State) (v : Word) : (s.writeStatus v).err = s.err := rfl
@[simp] theorem State.writeStatus_wbusy (s : State) (v : Word) : (s.writeStatus v).wbusy = (s.wbusy && !v.getLsbD 4) := rfl
@[simp] theorem State.writeStatus_mem (s : State) (v : Word) : (s.writeStatus v).mem = s.mem := rfl
@[simp] theorem State.writeStatus_datapath (s : State) (v : Word) : (s.writeStatus v).datapath = s.datapath := rfl
@[simp] theorem State.writeStatus_rdata (s : State) (v : Word) : (s.writeStatus v).rdata = s.rdata := rfl
@[simp] theorem State.writeStatus_inputs (s : State) (v : Word) : (s.writeStatus v).inputs = s.inputs := rfl
@[simp] theorem State.writeStatus_draws (s : State) (v : Word) : (s.writeStatus v).draws = s.draws := rfl
@[simp] theorem State.writeStatus_hostStores (s : State) (v : Word) : (s.writeStatus v).hostStores = s.hostStores := rfl
@[simp] theorem State.writeStatus_engineWrites (s : State) (v : Word) : (s.writeStatus v).engineWrites = s.engineWrites := rfl

/-! `dropWrite` -/

@[simp] theorem State.dropWrite_params (s : State) : s.dropWrite.params = s.params := rfl
@[simp] theorem State.dropWrite_width (s : State) : s.dropWrite.width = s.width := rfl
@[simp] theorem State.dropWrite_height (s : State) : s.dropWrite.height = s.height := rfl
@[simp] theorem State.dropWrite_base (s : State) : s.dropWrite.base = s.base := rfl
@[simp] theorem State.dropWrite_len (s : State) : s.dropWrite.len = s.len := rfl
@[simp] theorem State.dropWrite_phase (s : State) : s.dropWrite.phase = s.phase := rfl
@[simp] theorem State.dropWrite_done (s : State) : s.dropWrite.done = s.done := rfl
@[simp] theorem State.dropWrite_err (s : State) : s.dropWrite.err = s.err := rfl
@[simp] theorem State.dropWrite_wbusy (s : State) : s.dropWrite.wbusy = true := rfl
@[simp] theorem State.dropWrite_mem (s : State) : s.dropWrite.mem = s.mem := rfl
@[simp] theorem State.dropWrite_datapath (s : State) : s.dropWrite.datapath = s.datapath := rfl
@[simp] theorem State.dropWrite_rdata (s : State) : s.dropWrite.rdata = s.rdata := rfl
@[simp] theorem State.dropWrite_inputs (s : State) : s.dropWrite.inputs = s.inputs := rfl
@[simp] theorem State.dropWrite_draws (s : State) : s.dropWrite.draws = s.draws := rfl
@[simp] theorem State.dropWrite_hostStores (s : State) : s.dropWrite.hostStores = s.hostStores := rfl
@[simp] theorem State.dropWrite_engineWrites (s : State) : s.dropWrite.engineWrites = s.engineWrites := rfl

/-! `reject` -/

@[simp] theorem State.reject_params (s : State) (e : Err) : (s.reject e).params = s.params := rfl
@[simp] theorem State.reject_width (s : State) (e : Err) : (s.reject e).width = s.width := rfl
@[simp] theorem State.reject_height (s : State) (e : Err) : (s.reject e).height = s.height := rfl
@[simp] theorem State.reject_base (s : State) (e : Err) : (s.reject e).base = s.base := rfl
@[simp] theorem State.reject_len (s : State) (e : Err) : (s.reject e).len = s.len := rfl
@[simp] theorem State.reject_phase (s : State) (e : Err) : (s.reject e).phase = s.phase := rfl
@[simp] theorem State.reject_done (s : State) (e : Err) : (s.reject e).done = true := rfl
@[simp] theorem State.reject_err (s : State) (e : Err) : (s.reject e).err = e := rfl
@[simp] theorem State.reject_wbusy (s : State) (e : Err) : (s.reject e).wbusy = s.wbusy := rfl
@[simp] theorem State.reject_mem (s : State) (e : Err) : (s.reject e).mem = s.mem := rfl
@[simp] theorem State.reject_datapath (s : State) (e : Err) : (s.reject e).datapath = s.datapath := rfl
@[simp] theorem State.reject_rdata (s : State) (e : Err) : (s.reject e).rdata = s.rdata := rfl
@[simp] theorem State.reject_inputs (s : State) (e : Err) : (s.reject e).inputs = s.inputs := rfl
@[simp] theorem State.reject_draws (s : State) (e : Err) : (s.reject e).draws = s.draws := rfl
@[simp] theorem State.reject_hostStores (s : State) (e : Err) : (s.reject e).hostStores = s.hostStores := rfl
@[simp] theorem State.reject_engineWrites (s : State) (e : Err) : (s.reject e).engineWrites = s.engineWrites := rfl

/-! `accept` -/

@[simp] theorem State.accept_params (s : State) (i : Instr) : (s.accept i).params = s.params := rfl
@[simp] theorem State.accept_width (s : State) (i : Instr) : (s.accept i).width = s.width := rfl
@[simp] theorem State.accept_height (s : State) (i : Instr) : (s.accept i).height = s.height := rfl
@[simp] theorem State.accept_base (s : State) (i : Instr) : (s.accept i).base = s.base := rfl
@[simp] theorem State.accept_len (s : State) (i : Instr) : (s.accept i).len = s.len := rfl
@[simp] theorem State.accept_phase (s : State) (i : Instr) : (s.accept i).phase = .busy i s.snapshot := rfl
@[simp] theorem State.accept_done (s : State) (i : Instr) : (s.accept i).done = false := rfl
@[simp] theorem State.accept_err (s : State) (i : Instr) : (s.accept i).err = .ok := rfl
@[simp] theorem State.accept_wbusy (s : State) (i : Instr) : (s.accept i).wbusy = s.wbusy := rfl
@[simp] theorem State.accept_mem (s : State) (i : Instr) : (s.accept i).mem = s.mem := rfl
@[simp] theorem State.accept_datapath (s : State) (i : Instr) : (s.accept i).datapath = s.datapath := rfl
@[simp] theorem State.accept_rdata (s : State) (i : Instr) : (s.accept i).rdata = s.rdata := rfl
@[simp] theorem State.accept_inputs (s : State) (i : Instr) : (s.accept i).inputs = s.inputs := rfl
@[simp] theorem State.accept_draws (s : State) (i : Instr) : (s.accept i).draws = s.draws + s.snapshotDraws := rfl
@[simp] theorem State.accept_hostStores (s : State) (i : Instr) : (s.accept i).hostStores = s.hostStores := rfl
@[simp] theorem State.accept_engineWrites (s : State) (i : Instr) : (s.accept i).engineWrites = s.engineWrites := rfl

/-! `complete` -/

@[simp] theorem State.complete_params (s : State) (bs : List Byte) : (s.complete bs).params = s.params := rfl
@[simp] theorem State.complete_width (s : State) (bs : List Byte) : (s.complete bs).width = s.width := rfl
@[simp] theorem State.complete_height (s : State) (bs : List Byte) : (s.complete bs).height = s.height := rfl
@[simp] theorem State.complete_base (s : State) (bs : List Byte) : (s.complete bs).base = s.base := rfl
@[simp] theorem State.complete_len (s : State) (bs : List Byte) : (s.complete bs).len = s.len := rfl
@[simp] theorem State.complete_phase (s : State) (bs : List Byte) : (s.complete bs).phase = .idle := rfl
@[simp] theorem State.complete_done (s : State) (bs : List Byte) : (s.complete bs).done = true := rfl
@[simp] theorem State.complete_err (s : State) (bs : List Byte) : (s.complete bs).err = .ok := rfl
@[simp] theorem State.complete_wbusy (s : State) (bs : List Byte) : (s.complete bs).wbusy = s.wbusy := rfl
@[simp] theorem State.complete_mem (s : State) (bs : List Byte) : (s.complete bs).mem = writeBytes s.mem s.base bs := rfl
@[simp] theorem State.complete_datapath (s : State) (bs : List Byte) : (s.complete bs).datapath = Config.freeDatapath s.draws := rfl
@[simp] theorem State.complete_rdata (s : State) (bs : List Byte) : (s.complete bs).rdata = s.rdata := rfl
@[simp] theorem State.complete_inputs (s : State) (bs : List Byte) : (s.complete bs).inputs = s.inputs := rfl
@[simp] theorem State.complete_draws (s : State) (bs : List Byte) : (s.complete bs).draws = s.draws + 1 := rfl
@[simp] theorem State.complete_hostStores (s : State) (bs : List Byte) : (s.complete bs).hostStores = s.hostStores := rfl
@[simp] theorem State.complete_engineWrites (s : State) (bs : List Byte) :
    (s.complete bs).engineWrites = if s.params.memCoherent then s.engineWrites else s.buffer :: s.engineWrites := rfl

/-! `afterReset` -/

@[simp] theorem State.afterReset_params (s : State) : s.afterReset.params = s.params := rfl
@[simp] theorem State.afterReset_width (s : State) : s.afterReset.width = 0 := rfl
@[simp] theorem State.afterReset_height (s : State) : s.afterReset.height = 0 := rfl
@[simp] theorem State.afterReset_base (s : State) : s.afterReset.base = 0 := rfl
@[simp] theorem State.afterReset_len (s : State) : s.afterReset.len = 0 := rfl
@[simp] theorem State.afterReset_phase (s : State) : s.afterReset.phase = .idle := rfl
@[simp] theorem State.afterReset_done (s : State) : s.afterReset.done = false := rfl
@[simp] theorem State.afterReset_err (s : State) : s.afterReset.err = .ok := rfl
@[simp] theorem State.afterReset_wbusy (s : State) : s.afterReset.wbusy = false := rfl
@[simp] theorem State.afterReset_mem (s : State) : s.afterReset.mem = s.memAfterReset := rfl
@[simp] theorem State.afterReset_datapath (s : State) : s.afterReset.datapath = Datapath.zero := rfl
@[simp] theorem State.afterReset_rdata (s : State) : s.afterReset.rdata = s.rdata := rfl
@[simp] theorem State.afterReset_inputs (s : State) : s.afterReset.inputs = s.inputs := rfl
@[simp] theorem State.afterReset_draws (s : State) :
    s.afterReset.draws = if s.isBusy then s.draws + 4 * s.pixels else s.draws := rfl
@[simp] theorem State.afterReset_hostStores (s : State) : s.afterReset.hostStores = s.hostStores := rfl
@[simp] theorem State.afterReset_engineWrites (s : State) :
    s.afterReset.engineWrites = if s.isBusy && !s.params.memCoherent then s.buffer :: s.engineWrites else s.engineWrites := rfl

/-! `loaded` -/

@[simp] theorem State.loaded_params (s : State) (a : Word) (n : Nat) (v : Word) : (s.loaded a n v).params = s.params := rfl
@[simp] theorem State.loaded_width (s : State) (a : Word) (n : Nat) (v : Word) : (s.loaded a n v).width = s.width := rfl
@[simp] theorem State.loaded_height (s : State) (a : Word) (n : Nat) (v : Word) : (s.loaded a n v).height = s.height := rfl
@[simp] theorem State.loaded_base (s : State) (a : Word) (n : Nat) (v : Word) : (s.loaded a n v).base = s.base := rfl
@[simp] theorem State.loaded_len (s : State) (a : Word) (n : Nat) (v : Word) : (s.loaded a n v).len = s.len := rfl
@[simp] theorem State.loaded_phase (s : State) (a : Word) (n : Nat) (v : Word) : (s.loaded a n v).phase = s.phase := rfl
@[simp] theorem State.loaded_done (s : State) (a : Word) (n : Nat) (v : Word) : (s.loaded a n v).done = s.done := rfl
@[simp] theorem State.loaded_err (s : State) (a : Word) (n : Nat) (v : Word) : (s.loaded a n v).err = s.err := rfl
@[simp] theorem State.loaded_wbusy (s : State) (a : Word) (n : Nat) (v : Word) : (s.loaded a n v).wbusy = s.wbusy := rfl
@[simp] theorem State.loaded_mem (s : State) (a : Word) (n : Nat) (v : Word) : (s.loaded a n v).mem = s.mem := rfl
@[simp] theorem State.loaded_datapath (s : State) (a : Word) (n : Nat) (v : Word) : (s.loaded a n v).datapath = s.datapath := rfl
@[simp] theorem State.loaded_rdata (s : State) (a : Word) (n : Nat) (v : Word) : (s.loaded a n v).rdata = v := rfl
@[simp] theorem State.loaded_inputs (s : State) (a : Word) (n : Nat) (v : Word) : (s.loaded a n v).inputs = s.inputs := rfl
@[simp] theorem State.loaded_draws (s : State) (a : Word) (n : Nat) (v : Word) : (s.loaded a n v).draws = s.draws + s.loadDraws a n := rfl
@[simp] theorem State.loaded_hostStores (s : State) (a : Word) (n : Nat) (v : Word) : (s.loaded a n v).hostStores = s.hostStores := rfl
@[simp] theorem State.loaded_engineWrites (s : State) (a : Word) (n : Nat) (v : Word) : (s.loaded a n v).engineWrites = s.engineWrites := rfl

/-! `stored` -/

@[simp] theorem State.stored_params (s : State) (a v : Word) : (s.stored a v).params = s.params := rfl
@[simp] theorem State.stored_width (s : State) (a v : Word) : (s.stored a v).width = s.width := rfl
@[simp] theorem State.stored_height (s : State) (a v : Word) : (s.stored a v).height = s.height := rfl
@[simp] theorem State.stored_base (s : State) (a v : Word) : (s.stored a v).base = s.base := rfl
@[simp] theorem State.stored_len (s : State) (a v : Word) : (s.stored a v).len = s.len := rfl
@[simp] theorem State.stored_phase (s : State) (a v : Word) : (s.stored a v).phase = s.phase := rfl
@[simp] theorem State.stored_done (s : State) (a v : Word) : (s.stored a v).done = s.done := rfl
@[simp] theorem State.stored_err (s : State) (a v : Word) : (s.stored a v).err = s.err := rfl
@[simp] theorem State.stored_wbusy (s : State) (a v : Word) : (s.stored a v).wbusy = s.wbusy := rfl
@[simp] theorem State.stored_mem (s : State) (a v : Word) :
    (s.stored a v).mem = writeBytes s.mem a (bytesOfWord v) := rfl
@[simp] theorem State.stored_datapath (s : State) (a v : Word) : (s.stored a v).datapath = s.datapath := rfl
@[simp] theorem State.stored_rdata (s : State) (a v : Word) : (s.stored a v).rdata = s.rdata := rfl
@[simp] theorem State.stored_inputs (s : State) (a v : Word) : (s.stored a v).inputs = s.inputs := rfl
@[simp] theorem State.stored_draws (s : State) (a v : Word) : (s.stored a v).draws = s.draws := rfl
@[simp] theorem State.stored_hostStores (s : State) (a v : Word) :
    (s.stored a v).hostStores = if s.params.memCoherent then s.hostStores else ⟨a.toNat, 4⟩ :: s.hostStores := rfl
@[simp] theorem State.stored_engineWrites (s : State) (a v : Word) :
    (s.stored a v).engineWrites = if s.params.memCoherent then s.engineWrites else without s.engineWrites ⟨a.toNat, 4⟩ := rfl

/-! `wroteBack` -/

@[simp] theorem State.wroteBack_params (s : State) (r : Region) : (s.wroteBack r).params = s.params := rfl
@[simp] theorem State.wroteBack_width (s : State) (r : Region) : (s.wroteBack r).width = s.width := rfl
@[simp] theorem State.wroteBack_height (s : State) (r : Region) : (s.wroteBack r).height = s.height := rfl
@[simp] theorem State.wroteBack_base (s : State) (r : Region) : (s.wroteBack r).base = s.base := rfl
@[simp] theorem State.wroteBack_len (s : State) (r : Region) : (s.wroteBack r).len = s.len := rfl
@[simp] theorem State.wroteBack_phase (s : State) (r : Region) : (s.wroteBack r).phase = s.phase := rfl
@[simp] theorem State.wroteBack_done (s : State) (r : Region) : (s.wroteBack r).done = s.done := rfl
@[simp] theorem State.wroteBack_err (s : State) (r : Region) : (s.wroteBack r).err = s.err := rfl
@[simp] theorem State.wroteBack_wbusy (s : State) (r : Region) : (s.wroteBack r).wbusy = s.wbusy := rfl
@[simp] theorem State.wroteBack_mem (s : State) (r : Region) : (s.wroteBack r).mem = writeFree s.mem s.draws (s.clobbered r) := rfl
@[simp] theorem State.wroteBack_datapath (s : State) (r : Region) : (s.wroteBack r).datapath = s.datapath := rfl
@[simp] theorem State.wroteBack_rdata (s : State) (r : Region) : (s.wroteBack r).rdata = s.rdata := rfl
@[simp] theorem State.wroteBack_inputs (s : State) (r : Region) : (s.wroteBack r).inputs = s.inputs := rfl
@[simp] theorem State.wroteBack_draws (s : State) (r : Region) : (s.wroteBack r).draws = s.draws + (s.clobbered r).length := rfl
@[simp] theorem State.wroteBack_hostStores (s : State) (r : Region) :
    (s.wroteBack r).hostStores = withoutAll s.hostStores (s.settles r) := rfl
@[simp] theorem State.wroteBack_engineWrites (s : State) (r : Region) : (s.wroteBack r).engineWrites = s.engineWrites := rfl

/-! `invalidated` -/

@[simp] theorem State.invalidated_params (s : State) (r : Region) : (s.invalidated r).params = s.params := rfl
@[simp] theorem State.invalidated_width (s : State) (r : Region) : (s.invalidated r).width = s.width := rfl
@[simp] theorem State.invalidated_height (s : State) (r : Region) : (s.invalidated r).height = s.height := rfl
@[simp] theorem State.invalidated_base (s : State) (r : Region) : (s.invalidated r).base = s.base := rfl
@[simp] theorem State.invalidated_len (s : State) (r : Region) : (s.invalidated r).len = s.len := rfl
@[simp] theorem State.invalidated_phase (s : State) (r : Region) : (s.invalidated r).phase = s.phase := rfl
@[simp] theorem State.invalidated_done (s : State) (r : Region) : (s.invalidated r).done = s.done := rfl
@[simp] theorem State.invalidated_err (s : State) (r : Region) : (s.invalidated r).err = s.err := rfl
@[simp] theorem State.invalidated_wbusy (s : State) (r : Region) : (s.invalidated r).wbusy = s.wbusy := rfl
@[simp] theorem State.invalidated_mem (s : State) (r : Region) : (s.invalidated r).mem = writeFree s.mem s.draws (s.discarded r) := rfl
@[simp] theorem State.invalidated_datapath (s : State) (r : Region) : (s.invalidated r).datapath = s.datapath := rfl
@[simp] theorem State.invalidated_rdata (s : State) (r : Region) : (s.invalidated r).rdata = s.rdata := rfl
@[simp] theorem State.invalidated_inputs (s : State) (r : Region) : (s.invalidated r).inputs = s.inputs := rfl
@[simp] theorem State.invalidated_draws (s : State) (r : Region) : (s.invalidated r).draws = s.draws + (s.discarded r).length := rfl
@[simp] theorem State.invalidated_hostStores (s : State) (r : Region) :
    (s.invalidated r).hostStores = withoutAll s.hostStores (s.settles r) := rfl
@[simp] theorem State.invalidated_engineWrites (s : State) (r : Region) :
    (s.invalidated r).engineWrites = withoutAll s.engineWrites (s.settles r) := rfl

/-! `withInputs` -/

@[simp] theorem State.withInputs_params (s : State) (ins : List Input) : (s.withInputs ins).params = s.params := rfl
@[simp] theorem State.withInputs_width (s : State) (ins : List Input) : (s.withInputs ins).width = s.width := rfl
@[simp] theorem State.withInputs_height (s : State) (ins : List Input) : (s.withInputs ins).height = s.height := rfl
@[simp] theorem State.withInputs_base (s : State) (ins : List Input) : (s.withInputs ins).base = s.base := rfl
@[simp] theorem State.withInputs_len (s : State) (ins : List Input) : (s.withInputs ins).len = s.len := rfl
@[simp] theorem State.withInputs_phase (s : State) (ins : List Input) : (s.withInputs ins).phase = s.phase := rfl
@[simp] theorem State.withInputs_done (s : State) (ins : List Input) : (s.withInputs ins).done = s.done := rfl
@[simp] theorem State.withInputs_err (s : State) (ins : List Input) : (s.withInputs ins).err = s.err := rfl
@[simp] theorem State.withInputs_wbusy (s : State) (ins : List Input) : (s.withInputs ins).wbusy = s.wbusy := rfl
@[simp] theorem State.withInputs_mem (s : State) (ins : List Input) : (s.withInputs ins).mem = s.mem := rfl
@[simp] theorem State.withInputs_datapath (s : State) (ins : List Input) : (s.withInputs ins).datapath = s.datapath := rfl
@[simp] theorem State.withInputs_rdata (s : State) (ins : List Input) : (s.withInputs ins).rdata = s.rdata := rfl
@[simp] theorem State.withInputs_inputs (s : State) (ins : List Input) : (s.withInputs ins).inputs = ins := rfl
@[simp] theorem State.withInputs_draws (s : State) (ins : List Input) : (s.withInputs ins).draws = s.draws := rfl
@[simp] theorem State.withInputs_hostStores (s : State) (ins : List Input) : (s.withInputs ins).hostStores = s.hostStores := rfl
@[simp] theorem State.withInputs_engineWrites (s : State) (ins : List Input) : (s.withInputs ins).engineWrites = s.engineWrites := rfl

@[simp] theorem State.withInputs_pixels (s : State) (ins : List Input) : (s.withInputs ins).pixels = s.pixels := rfl
@[simp] theorem State.withInputs_isBusy (s : State) (ins : List Input) : (s.withInputs ins).isBusy = s.isBusy := rfl
@[simp] theorem State.withInputs_buffer (s : State) (ins : List Input) : (s.withInputs ins).buffer = s.buffer := rfl
@[simp] theorem State.withInputs_status (s : State) (ins : List Input) : (s.withInputs ins).status = s.status := rfl

/-! `returned` -/

@[simp] theorem State.returned_params (s : State) (v : Word) : (s.returned v).params = s.params := rfl
@[simp] theorem State.returned_width (s : State) (v : Word) : (s.returned v).width = s.width := rfl
@[simp] theorem State.returned_height (s : State) (v : Word) : (s.returned v).height = s.height := rfl
@[simp] theorem State.returned_base (s : State) (v : Word) : (s.returned v).base = s.base := rfl
@[simp] theorem State.returned_len (s : State) (v : Word) : (s.returned v).len = s.len := rfl
@[simp] theorem State.returned_phase (s : State) (v : Word) : (s.returned v).phase = s.phase := rfl
@[simp] theorem State.returned_done (s : State) (v : Word) : (s.returned v).done = s.done := rfl
@[simp] theorem State.returned_err (s : State) (v : Word) : (s.returned v).err = s.err := rfl
@[simp] theorem State.returned_wbusy (s : State) (v : Word) : (s.returned v).wbusy = s.wbusy := rfl
@[simp] theorem State.returned_mem (s : State) (v : Word) : (s.returned v).mem = s.mem := rfl
@[simp] theorem State.returned_datapath (s : State) (v : Word) : (s.returned v).datapath = s.datapath := rfl
@[simp] theorem State.returned_rdata (s : State) (v : Word) : (s.returned v).rdata = v := rfl
@[simp] theorem State.returned_inputs (s : State) (v : Word) : (s.returned v).inputs = s.inputs := rfl
@[simp] theorem State.returned_draws (s : State) (v : Word) : (s.returned v).draws = s.draws := rfl
@[simp] theorem State.returned_hostStores (s : State) (v : Word) : (s.returned v).hostStores = s.hostStores := rfl
@[simp] theorem State.returned_engineWrites (s : State) (v : Word) : (s.returned v).engineWrites = s.engineWrites := rfl

/-! The views of State that depend on a few fields only. -/

theorem State.isBusy_of_idle {s : State} (h : s.phase = .idle) : s.isBusy = false := by
  simp [State.isBusy, h]

theorem State.isBusy_of_busy {s : State} {i : Instr} {m : Memory} (h : s.phase = .busy i m) : s.isBusy = true := by
  simp [State.isBusy, h]

theorem State.isBusy_iff (s : State) : s.isBusy = true ↔ ∃ i m, s.phase = .busy i m := by
  cases h : s.phase <;> simp [State.isBusy, h]

theorem State.not_isBusy_iff (s : State) : s.isBusy = false ↔ s.phase = .idle := by
  cases h : s.phase <;> simp [State.isBusy, h]

/-! STATUS as a number (10_state R25). -/

/-- The value of STATUS from its four fields. -/
def statusOf (busy done wbusy : Bool) (e : Err) : Word :=
  BitVec.ofNat 32 (busy.toNat + 2 * done.toNat + 4 * (errCode e).toNat + 16 * wbusy.toNat)

theorem State.status_eq (s : State) : s.status = statusOf s.isBusy s.done s.wbusy s.err := by
  unfold State.status
  cases s.isBusy <;> cases s.done <;> cases s.wbusy <;> cases s.err <;> decide

end Sys2Proof.Machine
end

