-- ==== Sys2Proof/Laws/Step.lean ====
section
/-! SUPPORT. What issue, completion and a step can do: one lemma each, cited instead of unfolding. -/

namespace Sys2Proof.Machine

/-! Ranges of addresses. -/

theorem Region.has_iff (r : Region) (a : Nat) : Region.has r a = true ↔ r.base ≤ a ∧ a < r.base + r.len := by
  simp [Region.has]

theorem Region.meets_iff (r t : Region) : Region.meets r t = true ↔
    r.base < t.base + t.len ∧ t.base < r.base + r.len ∧ 0 < r.len ∧ 0 < t.len := by
  simp [Region.meets, and_assoc]

/-- Taking away a range takes away its addresses and no others. -/
theorem anyHas_minus (r t : Region) (a : Nat) : anyHas (Region.minus r t) a = (Region.has r a && !Region.has t a) := by
  rw [Bool.eq_iff_iff]
  simp only [anyHas, Region.minus, Region.has, List.any_eq_true, List.mem_filter, List.mem_cons, List.not_mem_nil, or_false,
    Bool.and_eq_true, decide_eq_true_eq, Bool.not_eq_true', Bool.and_eq_false_iff, decide_eq_false_iff_not]
  constructor
  · rintro ⟨q, ⟨rfl | rfl, -⟩, h⟩ <;> simp only at h <;> omega
  · intro h
    by_cases ha : a < t.base
    · exact ⟨_, ⟨.inl rfl, by simp only; omega⟩, by simp only; omega⟩
    · exact ⟨_, ⟨.inr rfl, by simp only; omega⟩, by simp only; omega⟩

theorem anyHas_without (l : List Region) (r : Region) (a : Nat) :
    anyHas (without l r) a = (anyHas l a && !Region.has r a) := by
  induction l with
  | nil => rfl
  | cons q l ih =>
    have hc : without (q :: l) r = Region.minus q r ++ without l r := rfl
    have ha : ∀ l₁ l₂ : List Region, anyHas (l₁ ++ l₂) a = (anyHas l₁ a || anyHas l₂ a) := fun _ _ => List.any_append
    rw [hc, ha, anyHas_minus, ih, show anyHas (q :: l) a = (Region.has q a || anyHas l a) from rfl, Bool.and_or_distrib_right]

theorem anyHas_withoutAll (l rs : List Region) (a : Nat) :
    anyHas (withoutAll l rs) a = (anyHas l a && !anyHas rs a) := by
  induction rs generalizing l with
  | nil => exact (Bool.and_true _).symm
  | cons r rs ih =>
    rw [show withoutAll l (r :: rs) = withoutAll (without l r) rs from rfl, ih, anyHas_without,
      show anyHas (r :: rs) a = (Region.has r a || anyHas rs a) from rfl, Bool.not_or, Bool.and_assoc]

theorem State.buffer_has_iff (s : State) (a : Nat) :
    Region.has s.buffer a = true ↔ s.base.toNat ≤ a ∧ a < s.base.toNat + 4 * s.pixels :=
  Region.has_iff s.buffer a

/-- An empty buffer meets nothing. -/
theorem anyMeets_empty (l : List Region) (s : State) (h : s.pixels = 0) : anyMeets l s.buffer = false := by
  simp [anyMeets, Region.meets, State.buffer, h]

/-! Maintenance (20_memory R63). -/

/-- What a maintenance of `r` settles, address by address. -/
theorem State.settles_has (s : State) (r : Region) (a : Nat) :
    anyHas (s.settles r) a =
      (!s.params.memCoherent && (Region.has r a && !(s.isBusy && Region.has s.buffer a))) := by
  unfold State.settles
  cases s.params.memCoherent <;> cases s.isBusy
  · simp [anyHas]
  · simp [anyHas_minus]
  · simp [anyHas]
  · simp [anyHas]

/-- The bytes of pending stores at which `f` holds, no more and no fewer. -/
theorem State.mem_pending {s : State} {f : Nat → Bool} {x : Word} :
    x ∈ s.pending f ↔ anyHas s.hostStores x.toNat = true ∧ f x.toNat = true := by
  simp only [State.pending, List.mem_filter, Bool.and_eq_true, and_iff_right_iff_imp]
  rintro ⟨h, -⟩
  obtain ⟨q, hq, hx⟩ := List.any_eq_true.mp h
  rw [Region.has_iff] at hx
  refine List.mem_flatMap.mpr ⟨q, hq, List.mem_map.mpr ⟨x.toNat - q.base, List.mem_range.mpr (by omega), ?_⟩⟩
  rw [show q.base + (x.toNat - q.base) = x.toNat by omega, BitVec.ofNat_toNat, BitVec.setWidth_eq]

theorem State.mem_clobbered {s : State} {r : Region} {x : Word} :
    x ∈ s.clobbered r ↔
      anyHas s.hostStores x.toNat = true ∧ anyHas (s.settles r) x.toNat = true ∧ anyHas s.engineWrites x.toNat = true := by
  rw [State.clobbered, State.mem_pending, Bool.and_eq_true]

theorem State.mem_discarded {s : State} {r : Region} {x : Word} :
    x ∈ s.discarded r ↔ anyHas s.hostStores x.toNat = true ∧ anyHas (s.settles r) x.toNat = true := State.mem_pending

/-! Validation (60_exceptions R181). -/

/-- Which operands fail checks 2 to 6. -/
theorem validateOperands_iff (p : Params) (w h b l : Word) :
    (validateOperands p w h b l = .ok ↔ ¬ (b = 0 ∨ b.toNat % 4 ≠ 0 ∨ l.toNat ≠ w.toNat * h.toNat ∨
      b.toNat + 4 * l.toNat > 4294967296 ∨ w.toNat > p.maxWidth)) ∧
    (validateOperands p w h b l = .ok ∨ validateOperands p w h b l = .invalidBuffer) := by
  have e : b.extractLsb' 0 2 = 0 ↔ b.toNat % 4 = 0 := by
    rw [← BitVec.toNat_inj]
    simp [BitVec.extractLsb'_toNat]
  rw [ne_eq (b.toNat % 4), ← e]
  unfold validateOperands
  constructor
  · split_ifs <;> simp_all
  · split_ifs <;> simp

/-- What an accepted command's operands satisfy. -/
theorem validateOperands_ok {p : Params} {w h b l : Word} (hv : validateOperands p w h b l = .ok) :
    b ≠ 0 ∧ b.toNat % 4 = 0 ∧ l.toNat = w.toNat * h.toNat ∧ b.toNat + 4 * l.toNat ≤ 4294967296 ∧
      w.toNat ≤ p.maxWidth := by
  have h := (validateOperands_iff p w h b l).1.mp hv
  simp only [not_or, ne_eq, not_not, gt_iff_lt, not_lt] at h
  exact h

/-! Commands. -/

/-- The word of a command passes check 1 (60_exceptions R181). -/
theorem validate_encode (i : Instr) (s : State) :
    s.validate (encode i) = validateOperands s.params s.width s.height s.base s.len := by
  cases i <;> rfl

/-- The bytes a command stores from BASE upward, by command. -/
def resultOf (i : Instr) (p : Params) : (Nat → Word) → Nat → Nat → List Byte :=
  match i with
  | .grey => greyResult p.greyArith
  | .hsv => hsvResult p.hsvArith
  | .emboss => embossResult
  | .blur => blurResult

theorem exec_eq (i : Instr) (s : State) : exec i s = runCommand i (resultOf i s.params) s := by
  cases i <;> rfl

/-- While IDLE a command is issued (60_exceptions R180). -/
theorem exec_idle (i : Instr) {s : State} (h : s.phase = .idle) : exec i s = issue i s := by
  rw [exec_eq, runCommand, h]

/-- While BUSY a command completes (60_exceptions R185). -/
theorem exec_busy (i : Instr) {s : State} {op : Instr} {snap : Memory} (h : s.phase = .busy op snap) :
    exec i s = complete (resultOf i s.params (pixelAt snap s.base) s.width.toNat s.height.toNat) s := by
  rw [exec_eq, runCommand, h]

/-- A result is never longer than the buffer (20_memory R51). -/
theorem length_resultOf_le (i : Instr) (p : Params) (px : Nat → Word) (w h : Nat) :
    (resultOf i p px w h).length ≤ 4 * (w * h) := by
  cases i
  · simp [resultOf, greyResult]
  · have : (hsvResult p.hsvArith px w h).length = 3 * (w * h) :=
      length_flatMap_range (fun i => hsvPixel p.hsvArith (px i)) 3 (w * h) (fun _ => rfl)
    simp only [resultOf, this]
    omega
  · simp [resultOf, embossResult]
  · simp [resultOf, blurResult]

theorem length_hsvResult (m : HsvArith) (px : Nat → Word) (w h : Nat) : (hsvResult m px w h).length = 3 * (w * h) :=
  length_flatMap_range (fun i => hsvPixel m (px i)) 3 (w * h) (fun _ => rfl)

/-- Issue answers a rejection, a refusal, or an accepted command, and says which checks decided. -/
theorem issue_cases (i : Instr) (s : State) :
    (validateOperands s.params s.width s.height s.base s.len ≠ .ok ∧ issue i s = .next (s.reject .invalidBuffer)) ∨
    (validateOperands s.params s.width s.height s.base s.len = .ok ∧ s.overDevice = true ∧
      issue i s = .refused .bufferOverDevice) ∨
    (validateOperands s.params s.width s.height s.base s.len = .ok ∧ s.overDevice = false ∧
      issue i s = .next (s.accept i)) := by
  have hv := validate_encode i s
  have hne : validateOperands s.params s.width s.height s.base s.len ≠ .illegalOp := by
    unfold validateOperands
    split_ifs <;> simp
  unfold issue
  rw [hv]
  cases h : validateOperands s.params s.width s.height s.base s.len with
  | ok => cases hd : s.overDevice <;> simp
  | invalidBuffer => simp
  | illegalOp => exact absurd h hne

theorem complete_cases (bs : List Byte) (s : State) :
    (anyMeets s.params.unbacked s.buffer = true ∧ complete bs s = .fault .busError) ∨
    (anyMeets s.params.unbacked s.buffer = false ∧ complete bs s = .next (s.complete bs)) := by
  unfold complete
  cases anyMeets s.params.unbacked s.buffer <;> simp

/-- Everything a command can answer. -/
theorem exec_cases {i : Instr} {s t : State} (h : exec i s = .next t) :
    (s.phase = .idle ∧ t = s.reject .invalidBuffer) ∨
    (s.phase = .idle ∧ validateOperands s.params s.width s.height s.base s.len = .ok ∧ t = s.accept i) ∨
    (∃ op snap, s.phase = .busy op snap ∧
      t = s.complete (resultOf i s.params (pixelAt snap s.base) s.width.toNat s.height.toNat)) := by
  cases hp : s.phase with
  | idle =>
    rw [exec_idle i hp] at h
    rcases issue_cases i s with ⟨-, e⟩ | ⟨-, -, e⟩ | ⟨hv, -, e⟩ <;> rw [e] at h <;> cases h
    · exact .inl ⟨rfl, rfl⟩
    · exact .inr (.inl ⟨rfl, hv, rfl⟩)
  | busy op snap =>
    rw [exec_busy i hp] at h
    rcases complete_cases (resultOf i s.params (pixelAt snap s.base) s.width.toNat s.height.toNat) s with
      ⟨-, e⟩ | ⟨-, e⟩ <;> rw [e] at h <;> cases h
    exact .inr (.inr ⟨op, snap, rfl, rfl⟩)

/-! The host's side. -/

/-- A decoding error is ILLEGAL_OP (60_exceptions R181 check 1). -/
theorem validate_of_error {c : Word} {e : DecodeError} (h : decodeWord c = .error e) (s : State) :
    s.validate c = .illegalOp := by
  simp [State.validate, validate, h]

/-- The states a settled register write can leave. -/
inductive RegWritten (s : State) : State → Prop where
  | same : RegWritten s s
  | dropped : s.isBusy = true → RegWritten s s.dropWrite
  | illegal : s.phase = .idle → RegWritten s (s.reject .illegalOp)
  | status (v : Word) : RegWritten s (s.writeStatus v)
  | width (v : Word) : s.phase = .idle → RegWritten s { s with width := v }
  | height (v : Word) : s.phase = .idle → RegWritten s { s with height := v }
  | base (v : Word) : s.phase = .idle → RegWritten s { s with base := v }
  | len (v : Word) : s.phase = .idle → RegWritten s { s with len := v }

theorem writeReg_settle {r : Reg} {v : Word} {s t : State} (h : writeReg r v s = .settle (.next t)) : RegWritten s t := by
  cases r <;> simp only [writeReg] at h
  case cmd =>
    unfold cmdWrite at h
    split at h
    · next hb => cases h; exact .dropped hb
    · next hb =>
      have hi : s.phase = .idle := (s.not_isBusy_iff).mp (by simpa using hb)
      split at h
      · cases h
      · next e he => cases h; rw [validate_of_error he]; exact .illegal hi
  case status => cases h; exact .status v
  case reserved18 => cases h; exact .same
  case reserved1C => cases h; exact .same
  all_goals
    cases hb : s.isBusy <;> rw [hb] at h <;> cases h
  all_goals first | exact .dropped hb | skip
  · exact .width v ((s.not_isBusy_iff).mp hb)
  · exact .height v ((s.not_isBusy_iff).mp hb)
  · exact .base v ((s.not_isBusy_iff).mp hb)
  · exact .len v ((s.not_isBusy_iff).mp hb)

theorem writeReg_run {r : Reg} {v : Word} {s t : State} {i : Instr} (h : writeReg r v s = .run i t) :
    r = .cmd ∧ decodeWord v = .ok i ∧ s.phase = .idle ∧ t = s := by
  cases r <;> simp only [writeReg] at h
  case cmd =>
    unfold cmdWrite at h
    split at h
    · cases h
    · next hb =>
      split at h
      · next j hj => cases h; exact ⟨rfl, hj, (s.not_isBusy_iff).mp (by simpa using hb), rfl⟩
      · cases h
  all_goals cases h

/-- The states a settled host transaction can leave, the transaction itself taken off the inputs. -/
inductive HostActed (s : State) : State → Prop where
  | reg {t : State} : RegWritten s t → HostActed s t
  | read (v : Word) : HostActed s (s.returned v)
  | loaded (a : Word) (n : Nat) (v : Word) : HostActed s (s.loaded a n v)
  | stored (a v : Word) : a.toNat + 4 ≤ 4294967296 →
      (s.isBusy && Region.meets ⟨a.toNat, 4⟩ s.buffer) = false → HostActed s (s.stored a v)
  | wroteBack (r : Region) : HostActed s (s.wroteBack r)
  | invalidated (r : Region) : HostActed s (s.invalidated r)

theorem windowWrite_settle {o : Option Reg} {v : Word} {s t : State}
    (h : windowWrite o v s = .settle (.next t)) : HostActed s t := by
  cases o with
  | none => cases h
  | some r => exact .reg (writeReg_settle h)

theorem windowRead_settle {o : Option Reg} {s t : State} (h : windowRead o s = .settle (.next t)) : HostActed s t := by
  cases o with
  | none => cases h
  | some r => cases h; exact .read _

theorem windowRead_run {o : Option Reg} {s t : State} {i : Instr} (h : windowRead o s = .run i t) : False := by
  cases o <;> cases h

theorem windowWrite_run {o : Option Reg} {v : Word} {s t : State} {i : Instr} (h : windowWrite o v s = .run i t) :
    o = some .cmd ∧ decodeWord v = .ok i ∧ s.phase = .idle ∧ t = s := by
  cases o with
  | none => cases h
  | some r => obtain ⟨rfl, hr⟩ := writeReg_run h; exact ⟨rfl, hr⟩

theorem target_fits {p : Params} {a : Word} {n : Nat} (h : target p a n ≠ .outside) : a.toNat + n ≤ 4294967296 := by
  by_contra hc
  exact h (by simp only [target]; rw [if_pos (by omega)])

theorem hostLoad_settle {tg : Target} {a : Word} {n : Nat} {v : Word} {s t : State}
    (h : hostLoad tg a n v s = .settle (.next t)) : HostActed s t := by
  cases tg <;> simp only [hostLoad] at h
  · cases h; exact .loaded a n v
  · cases h
  · exact windowRead_settle h
  · cases h
  · cases h

theorem hostStore_settle {p : Params} {a v : Word} {s t : State}
    (h : hostStore (target p a 4) a v s = .settle (.next t)) : HostActed s t := by
  cases ht : target p a 4 <;> rw [ht] at h <;> simp only [hostStore] at h
  · split at h
    · cases h
    · next hb => cases h; exact .stored a v (target_fits (by rw [ht]; simp)) (by simpa using hb)
  · cases h
  · exact windowWrite_settle h
  · cases h
  · cases h

theorem hostTurn_settle {op : HostOp} {s t : State} (h : hostTurn op s = .settle (.next t)) : HostActed s t := by
  cases op <;> simp only [hostTurn] at h
  case rd => exact windowRead_settle h
  case wr => exact windowWrite_settle h
  case ld32 => exact hostLoad_settle h
  case ld8 => exact hostLoad_settle h
  case st32 => exact hostStore_settle h
  case writeBack r => cases h; exact .wroteBack r
  case invalidate r => cases h; exact .invalidated r

theorem hostTurn_run {op : HostOp} {s t : State} {i : Instr} (h : hostTurn op s = .run i t) :
    s.phase = .idle ∧ t = s := by
  cases op <;> simp only [hostTurn] at h
  case rd => exact (windowRead_run h).elim
  case wr => exact (windowWrite_run h).2.2
  case ld32 a =>
    revert h; cases target s.params a 4 <;> intro h <;> simp only [hostLoad] at h
    case window => exact (windowRead_run h).elim
    all_goals cases h
  case ld8 a =>
    revert h; cases target s.params a 1 <;> intro h <;> simp only [hostLoad] at h
    case window => exact (windowRead_run h).elim
    all_goals cases h
  case st32 a v =>
    revert h; cases target s.params a 4 <;> intro h <;> simp only [hostStore] at h
    case window => exact (windowWrite_run h).2.2
    case memory => split at h <;> cases h
    all_goals cases h
  all_goals cases h

/-! One step, by the input it serves. -/

theorem step_nil {s : State} (h : s.inputs = []) : step s = perform (engineTurn s) := by
  simp only [step, nextAction, h]

theorem step_engine {s : State} {rest : List Input} (h : s.inputs = .engine :: rest) :
    step s = perform (engineTurn (s.withInputs rest)) := by
  simp only [step, nextAction, h]

theorem step_host {s : State} {op : HostOp} {rest : List Input} (h : s.inputs = .host op :: rest) :
    step s = perform (hostTurn op (s.withInputs rest)) := by
  simp only [step, nextAction, h]

theorem step_wait {s : State} {k : Nat} {rest : List Input} (h : s.inputs = .wait k :: rest) :
    step s = perform (waitTurn k (s.withInputs rest)) := by
  simp only [step, nextAction, h]

theorem step_reset {s : State} {rest : List Input} (h : s.inputs = .reset :: rest) :
    step s = .next (s.withInputs rest).afterReset := by
  simp only [step, nextAction, h, perform]

theorem engineTurn_idle {s : State} (h : s.phase = .idle) : engineTurn s = .settle (.next s) := by
  simp only [engineTurn, h]

theorem engineTurn_busy {s : State} {op : Instr} {snap : Memory} (h : s.phase = .busy op snap) :
    engineTurn s = .run op s := by
  simp only [engineTurn, h]

theorem waitTurn_idle {s : State} (k : Nat) (h : s.phase = .idle) :
    waitTurn k s = .settle (.next (s.returned s.status)) := by
  simp only [waitTurn, h]

theorem waitTurn_last {s : State} {op : Instr} {snap : Memory} (h : s.phase = .busy op snap) :
    waitTurn 0 s = .run op (s.withInputs (.wait 0 :: s.inputs)) := by
  simp only [waitTurn, h]

theorem waitTurn_poll {s : State} {op : Instr} {snap : Memory} (k : Nat) (h : s.phase = .busy op snap) :
    waitTurn (k + 1) s = .settle (.next ((s.returned s.status).withInputs (.wait k :: s.inputs))) := by
  simp only [waitTurn, h]

/-- The engine's turn was served, leaving the inputs `ins`: none was left, it was due, or a WAIT loop had no poll left. -/
def EngineServed (s : State) (ins : List Input) : Prop :=
  (s.inputs = [] ∧ ins = []) ∨ s.inputs = .engine :: ins ∨ ∃ rest, s.inputs = .wait 0 :: rest ∧ ins = s.inputs

/-- Everything a step of `s` that goes on to `t` can be. -/
inductive Stepped (s t : State) : Prop where
  /-- The engine's turn while IDLE. -/
  | idled (ins : List Input) : s.phase = .idle → t = s.withInputs ins → Stepped s t
  /-- A host transaction settled without a command. -/
  | host (op : HostOp) (rest : List Input) : s.inputs = .host op :: rest →
      hostTurn op (s.withInputs rest) = .settle (.next t) → Stepped s t
  /-- A poll of the WAIT loop. -/
  | polled (ins : List Input) : t = (s.returned s.status).withInputs ins → Stepped s t
  /-- Reset. -/
  | reset (rest : List Input) : s.inputs = .reset :: rest → t = (s.withInputs rest).afterReset → Stepped s t
  /-- A command: if one was running, the latched one at the engine's turn. -/
  | ran (i : Instr) (ins : List Input) : exec i (s.withInputs ins) = .next t →
      (∀ op snap, s.phase = .busy op snap → i = op ∧ EngineServed s ins) → Stepped s t

theorem stepped_engine {s t : State} {ins : List Input} (hs : EngineServed s ins)
    (h : perform (engineTurn (s.withInputs ins)) = .next t) : Stepped s t := by
  cases hp : s.phase with
  | idle =>
    rw [engineTurn_idle (s := s.withInputs ins) hp] at h
    cases h
    exact .idled ins hp rfl
  | busy op snap =>
    rw [engineTurn_busy (s := s.withInputs ins) hp] at h
    exact .ran op ins h (fun _ _ e => by cases hp.symm.trans e; exact ⟨rfl, hs⟩)

theorem step_cases {s t : State} (h : step s = .next t) : Stepped s t := by
  cases hi : s.inputs with
  | nil => rw [step_nil hi] at h; exact stepped_engine (ins := s.inputs) (.inl ⟨hi, hi⟩) h
  | cons x rest =>
    cases x with
    | engine => rw [step_engine hi] at h; exact stepped_engine (.inr (.inl hi)) h
    | reset => rw [step_reset hi] at h; cases h; exact .reset rest hi rfl
    | host op =>
      rw [step_host hi] at h
      cases ha : hostTurn op (s.withInputs rest) with
      | run i u =>
        obtain ⟨hp, rfl⟩ := hostTurn_run ha
        rw [ha] at h
        exact .ran i rest h (fun _ _ e => by cases hp.symm.trans e)
      | settle r =>
        rw [ha] at h
        cases h
        exact .host op rest hi ha
    | wait k =>
      rw [step_wait hi] at h
      cases hp : s.phase with
      | idle =>
        rw [waitTurn_idle (s := s.withInputs rest) k hp] at h
        cases h
        exact .polled rest rfl
      | busy op snap =>
        cases k with
        | zero =>
          rw [waitTurn_last (s := s.withInputs rest) hp] at h
          exact .ran op _ h (fun _ _ e => by cases hp.symm.trans e; exact ⟨rfl, .inr (.inr ⟨rest, hi, hi.symm⟩)⟩)
        | succ k =>
          rw [waitTurn_poll (s := s.withInputs rest) k hp] at h
          cases h
          exact .polled _ rfl

/-! What a settled host transaction keeps. -/

theorem RegWritten.keeps_mem {s t : State} (h : RegWritten s t) : t.mem = s.mem := by cases h <;> rfl

theorem RegWritten.keeps_params {s t : State} (h : RegWritten s t) : t.params = s.params := by cases h <;> rfl

/-- While BUSY a register write leaves the phase, the operands and ERR as they are, and DONE at 0. -/
theorem RegWritten.keeps_command {s t : State} {op : Instr} {snap : Memory} (h : RegWritten s t)
    (hp : s.phase = .busy op snap) :
    t.phase = s.phase ∧ t.width = s.width ∧ t.height = s.height ∧ t.base = s.base ∧ t.len = s.len ∧
      t.err = s.err ∧ (s.done = false → t.done = false) := by
  cases h <;> simp_all

theorem HostActed.keeps_params {s t : State} (h : HostActed s t) : t.params = s.params := by
  cases h with
  | reg h => exact h.keeps_params
  | _ => rfl

theorem HostActed.keeps_command {s t : State} {op : Instr} {snap : Memory} (h : HostActed s t)
    (hp : s.phase = .busy op snap) :
    t.phase = s.phase ∧ t.width = s.width ∧ t.height = s.height ∧ t.base = s.base ∧ t.len = s.len ∧
      t.err = s.err ∧ (s.done = false → t.done = false) := by
  cases h with
  | reg h => exact h.keeps_command hp
  | _ => exact ⟨rfl, rfl, rfl, rfl, rfl, rfl, id⟩

theorem HostActed.keeps_idle {s t : State} (h : HostActed s t) (hp : s.phase = .idle) : t.phase = .idle := by
  cases h with
  | reg h => cases h <;> simp_all
  | _ => exact hp

/-- Memory after a settled host transaction: as it was; with the word of an ST32 stored outside a running buffer; or, where
MEM_COHERENT is false, with free values at bytes of pending stores that a maintenance settles. -/
theorem HostActed.mem_cases {s t : State} (h : HostActed s t) :
    t.mem = s.mem ∨
    (∃ a v, a.toNat + 4 ≤ 4294967296 ∧
      (s.isBusy && Region.meets ⟨a.toNat, 4⟩ s.buffer) = false ∧ t.mem = writeBytes s.mem a (bytesOfWord v)) ∨
    ∃ r as, t.mem = writeFree s.mem s.draws as ∧
      ∀ x ∈ as, anyHas s.hostStores x.toNat = true ∧ anyHas (s.settles r) x.toNat = true := by
  cases h with
  | reg h => exact .inl h.keeps_mem
  | stored a v h1 h2 => exact .inr (.inl ⟨a, v, h1, h2, rfl⟩)
  | wroteBack r => exact .inr (.inr ⟨r, _, rfl, fun _ hx => ⟨(State.mem_clobbered.mp hx).1, (State.mem_clobbered.mp hx).2.1⟩⟩)
  | invalidated r => exact .inr (.inr ⟨r, _, rfl, fun _ hx => State.mem_discarded.mp hx⟩)
  | _ => exact .inl rfl

/-- The transactions that change memory are ST32 and, over pending stores, a maintenance. -/
theorem hostTurn_mem {op : HostOp} {s t : State} (h : hostTurn op s = .settle (.next t)) :
    t.mem = s.mem ∨
    (∃ a v, op = .st32 a v ∧ a.toNat + 4 ≤ 4294967296 ∧ t.mem = writeBytes s.mem a (bytesOfWord v)) ∨
    ∃ r as, (op = .writeBack r ∨ op = .invalidate r) ∧ t.mem = writeFree s.mem s.draws as ∧
      ∀ x ∈ as, anyHas s.hostStores x.toNat = true ∧ anyHas (s.settles r) x.toNat = true := by
  have keep : ∀ {a n v} {tg : Target}, hostLoad tg a n v s = .settle (.next t) → t.mem = s.mem := by
    intro a n v tg h
    cases tg <;> simp only [hostLoad] at h
    case window slot =>
      cases slot with
      | none => cases h
      | some r => cases h; rfl
    all_goals cases h
    rfl
  cases op <;> simp only [hostTurn] at h
  case rd off size =>
    cases hr : regAt off size <;> rw [hr] at h <;> cases h
    exact .inl rfl
  case wr off size v =>
    cases hr : regAt off size <;> rw [hr] at h
    · cases h
    · exact .inl (writeReg_settle h).keeps_mem
  case ld32 => exact .inl (keep h)
  case ld8 => exact .inl (keep h)
  case st32 a v =>
    cases ht : target s.params a 4 <;> rw [ht] at h <;> simp only [hostStore] at h
    case memory =>
      split at h <;> cases h
      exact .inr (.inl ⟨a, v, rfl, target_fits (by rw [ht]; simp), rfl⟩)
    case window slot =>
      cases slot with
      | none => cases h
      | some r => exact .inl (writeReg_settle h).keeps_mem
    all_goals cases h
  case writeBack r =>
    cases h
    exact .inr (.inr ⟨r, _, .inl rfl, rfl, fun _ hx => ⟨(State.mem_clobbered.mp hx).1, (State.mem_clobbered.mp hx).2.1⟩⟩)
  case invalidate r =>
    cases h
    exact .inr (.inr ⟨r, _, .inr rfl, rfl, fun _ hx => State.mem_discarded.mp hx⟩)

end Sys2Proof.Machine
end

