-- ==== Sys2Proof/Laws/Complete.lean ====
section
/-! SUPPORT. What a completion stores and what it leaves, and what the snapshot holds. -/

namespace Sys2Proof.Machine

/-- Operands that pass leave the buffer inside the address space (60_exceptions R181, check 5). -/
theorem State.fits_of_ok {s : State} (hv : validateOperands s.params s.width s.height s.base s.len = .ok) :
    s.base.toNat + 4 * s.pixels ≤ 4294967296 := by
  have := validateOperands_ok hv
  unfold State.pixels
  omega

/-! The snapshot (20_memory R55). -/

theorem State.snapshot_wf {s : State} (h : s.mem.wf) : s.snapshot.wf := by
  unfold State.snapshot
  split
  · exact restrict_wf h
  · exact writeBytes_wf _ _ ⟨List.Pairwise.nil, by intro c hc; cases hc⟩

/-- On a coherent platform the snapshot holds memory's bytes over the buffer. -/
theorem State.readByte_snapshot {s : State} (hm : s.params.memCoherent = true) (x : Word)
    (hx : s.base.toNat ≤ x.toNat ∧ x.toNat < s.base.toNat + 4 * s.pixels) :
    readByte s.snapshot x = readByte s.mem x := by
  rw [State.snapshot, if_pos hm, readByte_restrict _ _ _ _ hx]

theorem State.pixelAt_snapshot {s : State} (hm : s.params.memCoherent = true)
    (hf : s.base.toNat + 4 * s.pixels ≤ 4294967296) {k : Nat} (hk : k < s.pixels) :
    pixelAt s.snapshot s.base k = pixelAt s.mem s.base k := by
  have e : ∀ j : Nat, j < 4 → (s.base + BitVec.ofNat 32 (4 * k) + BitVec.ofNat 32 j).toNat = s.base.toNat + 4 * k + j := by
    intro j hj
    bv_omega
  have a := fun j (hj : j < 4) => State.readByte_snapshot hm (s.base + BitVec.ofNat 32 (4 * k) + BitVec.ofNat 32 j)
    (by rw [e j hj]; omega)
  simp only [pixelAt, readWord]
  congr 1
  · simpa using a 0 (by omega)
  · exact a 1 (by omega)
  · exact a 2 (by omega)
  · exact a 3 (by omega)

/-! Completion (60_exceptions R185). -/

/-- A completion that can take place is a next state, whatever command runs. -/
theorem exec_complete (i : Instr) {s : State} {op : Instr} {snap : Memory} (hp : s.phase = .busy op snap)
    (hc : s.canComplete) :
    exec i s = .next (s.complete (resultOf i s.params (pixelAt snap s.base) s.width.toNat s.height.toNat)) := by
  rw [exec_busy i hp]
  rcases complete_cases (resultOf i s.params (pixelAt snap s.base) s.width.toNat s.height.toNat) s with ⟨h, _⟩ | ⟨_, h⟩
  · rw [hc.2.2] at h
    cases h
  · exact h

/-- The frame of a completion. -/
theorem State.complete_over {s : State} {bs : List Byte} (hc : s.canComplete) (hl : bs.length ≤ 4 * s.pixels) :
    completedOver bs.length s (s.complete bs) := by
  refine ⟨rfl, rfl, rfl, rfl, rfl, rfl, rfl, rfl, rfl, rfl, rfl, rfl, rfl, ?_⟩
  intro x hx
  obtain ⟨h1, h2, _⟩ := hc
  exact readByte_off_stored _ _ _ _ h1 (by omega) hx

/-- A command that stores words stores the word of pixel `i` at BASE + 4*i (20_memory R50). -/
theorem readWord_result {s : State} (hc : s.canComplete) (f : Nat → Word) {i : Nat} (hi : i < s.pixels) :
    readWord (writeBytes s.mem s.base (pixelBytes f s.pixels)) (s.base + BitVec.ofNat 32 (4 * i)) = f i :=
  readWord_pixelBytes _ _ f _ i hc.1 hc.2.1 hi

/-- HSV stores byte `k` of the triple of pixel `i` at BASE + 3*i + k (42_hsv R137). -/
theorem readByte_hsvResult {s : State} (hc : s.canComplete) (m : HsvArith) (px : Nat → Word) {i k : Nat}
    (hi : i < s.pixels) (hk : k < 3) :
    readByte (writeBytes s.mem s.base (hsvResult m px s.width.toNat s.height.toNat))
      (s.base + BitVec.ofNat 32 (3 * i + k)) = (hsvPixel m (px i)).getD k 0 := by
  have hl : (hsvResult m px s.width.toNat s.height.toNat).length = 3 * s.pixels := length_hsvResult _ _ _ _
  have h2 := hc.2.1
  rw [readByte_stored _ _ _ _ hc.1 (by omega) (by omega)]
  have hg := getElem?_flatMap_range (fun i => hsvPixel m (px i)) 3 s.pixels i k (fun _ => rfl) hi hk
  change (hsvResult m px s.width.toNat s.height.toNat)[3 * i + k]? = _ at hg
  rw [List.getElem?_eq_getElem (by omega), List.getElem?_eq_getElem (by exact hk)] at hg
  rw [List.getD_eq_getElem _ _ (by exact hk)]
  exact Option.some.inj hg

/-! BLUR's taps (44_blur R165, R167). -/

theorem tap_eq (px : Nat → Word) (w h : Nat) (ch : Word → Byte) (row col ky kx : Nat) :
    tap px w h ch row col ky kx =
      if (2 ≤ row + ky ∧ row + ky - 2 < h) ∧ (2 ≤ col + kx ∧ col + kx - 2 < w) then
        kernelAt ky kx * (ch (px ((row + ky - 2) * w + (col + kx - 2)))).toNat
      else 0 := by
  unfold tap sampleAt
  by_cases h1 : 2 ≤ row + ky ∧ row + ky - 2 < h <;> by_cases h2 : 2 ≤ col + kx ∧ col + kx - 2 < w <;> simp [h1, h2]

/-- Adding taps in 16 bits is adding them modulo 2^16. -/
theorem foldl_accumulate (f : Nat × Nat → Nat) (l : List (Nat × Nat)) (a : Nat) :
    l.foldl (fun acc k => acc + BitVec.ofNat 16 (f k)) (BitVec.ofNat 16 a) = BitVec.ofNat 16 (a + (l.map f).sum) := by
  induction l generalizing a with
  | nil => simp
  | cons x l ih => rw [List.foldl_cons, ← BitVec.ofNat_add, ih, List.map_cons, List.sum_cons, Nat.add_assoc]

end Sys2Proof.Machine
end

