-- ==== Sys2Proof/Laws/PerInstr.lean ====
section
/-! SUPPORT. What holds of every command's word, one lemma per command. -/

namespace Sys2Proof.Laws

/-- The command is well formed, and its word is a command word: RSVD 0, OP from 1 to 4, four bytes, read back as the command
(30_encoding R70 to R74). -/
def CommandWord.Statement (i : Instr) : Prop :=
  i.wf = true ∧ commandWordWf (encode i) = true ∧ rsvdField (encode i) = 0 ∧
  1 ≤ (opcode i).toNat ∧ (opcode i).toNat ≤ 4 ∧ opField (encode i) = opcode i ∧
  (encodeBytes i).length = 4 ∧ decodeWord (encode i) = .ok i

theorem CommandWord.grey : CommandWord.Statement .grey := by
  unfold CommandWord.Statement
  decide

theorem CommandWord.hsv : CommandWord.Statement .hsv := by
  unfold CommandWord.Statement
  decide

theorem CommandWord.emboss : CommandWord.Statement .emboss := by
  unfold CommandWord.Statement
  decide

theorem CommandWord.blur : CommandWord.Statement .blur := by
  unfold CommandWord.Statement
  decide

end Sys2Proof.Laws
end

