-- ==== Sys2Proof/Tests/Slice0.lean ====
section
/-! SUPPORT. The model's own tests: expected values from spec/95_test_vectors.md, and for every statement with hypotheses a
concrete state and operands that meet them. -/

set_option maxRecDepth 20000

open Sys2Proof Sys2Proof.Machine

namespace Sys2Proof.Tests

/-! Helpers. -/

/-- IDLE, a `w` by `h` image of the words `px` at 0x1000. -/
def image (w h : Nat) (px : List Word) : State :=
  { State.reset with
    width := BitVec.ofNat 32 w
    height := BitVec.ofNat 32 h
    base := 0x1000
    len := BitVec.ofNat 32 (w * h)
    mem := writeBytes [] 0x1000 (px.flatMap bytesOfWord) }

/-- The image with the command `i` issued. -/
def running (i : Instr) (w h : Nat) (px : List Word) : State := (image w h px).accept i

/-- The two-pixel image most witnesses use. -/
def pair : State := image 2 1 [0x7F08FF01, 0xFF1E140A]

/-- `pair` with a command running. -/
def pairRunning (i : Instr) : State := pair.accept i

/-- What a step's next state shows. -/
def sees {α : Type} (f : State → α) : Result → Option α
  | .next t => some (f t)
  | .fault _ => none
  | .refused _ => none

/-- The words at 0x1000, 0x1004, ... -/
def words (n : Nat) (s : State) : List Word :=
  (List.range n).map (fun k => readWord s.mem (BitVec.ofNat 32 (0x1000 + 4 * k)))

/-- The bytes at 0x1000, 0x1001, ... -/
def bytes (n : Nat) (s : State) : List Byte :=
  (List.range n).map (fun k => readByte s.mem (BitVec.ofNat 32 (0x1000 + k)))

def isNext : Result → Bool
  | .next _ => true
  | .fault _ => false
  | .refused _ => false

/-! Well-formedness: an ill-formed term for each check. -/

theorem test_reserved_bits_ill_formed : commandWordWf 0x00000009 = false := by decide
theorem test_op_too_large_ill_formed : commandWordWf 0x00000005 = false := by decide
theorem test_op_zero_ill_formed : commandWordWf 0x00000000 = false := by decide
theorem test_access_misaligned_ill_formed : regAccessWf 0x02 4 = false := by decide
theorem test_access_narrow_ill_formed : regAccessWf 0x04 2 = false := by decide
theorem test_access_past_window_ill_formed : regAccessWf 0x20 4 = false := by decide
theorem test_params_ill_formed : ({ Params.specDefault with maxWidth := 4294967296 } : Params).wf = false := by decide
theorem test_well_formed_terms :
    [1, 2, 3, 4].map commandWordWf = [true, true, true, true] ∧ regAccessWf 0x1C 4 = true ∧ Params.specDefault.wf = true := by decide

/-! Decoding: words written out from 30_encoding R71 and R72 as RSVD (29 bits) and OP (3 bits). -/

theorem test_decode_grey : decodeWord 0b00000000000000000000000000000_001 = .ok .grey := by decide
theorem test_decode_hsv : decodeWord 0b00000000000000000000000000000_010 = .ok .hsv := by decide
theorem test_decode_emboss : decodeWord 0b00000000000000000000000000000_011 = .ok .emboss := by decide
theorem test_decode_blur : decodeWord 0b00000000000000000000000000000_100 = .ok .blur := by decide
theorem test_decode_reserved_ops :
    [0b000, 0b101, 0b110, 0b111].map decodeWord = List.replicate 4 (.error .reservedOp) := by decide
theorem test_decode_reserved_bits : decodeWord 0b10000000000000000000000000000_001 = .error .reservedBits := by decide
theorem test_decode_bytes : decodeBytes [0x04, 0x00, 0x00, 0x00, 0xAA] = .ok (.blur, [0xAA]) := by decide
theorem test_decode_truncated : decodeBytes [0x01, 0x00, 0x00] = .error .truncated := by decide

/-! Vectors of 95_test_vectors. -/

/-- V-C1, V-C5, V-C6. -/
theorem test_codec : pack 0x12 0x34 0x56 0x78 = 0x78563412 ∧ pack 0x1FF 0 0 0 = 0x000001FF ∧
    unpackRed 0xAABBCCDD = 0xDD ∧ unpackGreen 0xAABBCCDD = 0xCC ∧ unpackBlue 0xAABBCCDD = 0xBB ∧
    unpackAlpha 0xAABBCCDD = 0xAA := by decide

/-- V-C10 to V-C14. -/
theorem test_truncate :
    truncateChannel ⟨65280, 1⟩ ⟨1, 256⟩ ⟨0, 1⟩ = 255 ∧ truncateChannel ⟨255, 1⟩ ⟨1, 256⟩ ⟨0, 1⟩ = 0 ∧
    truncateChannel ⟨511, 1⟩ ⟨1, 256⟩ ⟨0, 1⟩ = 1 ∧ truncateChannel ⟨100000, 1⟩ ⟨1, 256⟩ ⟨0, 1⟩ = 255 ∧
    truncateChannel ⟨-5, 1⟩ ⟨1, 1⟩ ⟨0, 1⟩ = 0 := by decide

/-- V-G5 and V-G8 under EXACT. -/
theorem test_grey_exact : sees (words 2) (exec .grey (running .grey 2 1 [0xFF081B00, 0x1238220C])) =
    some [0xFF141414, 0x121E1E1E] := by decide

/-- V-G5 and V-G1 under BINARY64. -/
theorem test_grey_binary : greyPixel .binary64 0xFF081B00 = 0xFF131313 ∧ greyPixel .binary64 0xFFFFFFFF = 0xFFFEFEFE := by decide

/-- P2: V-H1, V-H12, V-H8, a grey pixel, and the tail, under U8_WRAP. -/
theorem test_hsv_wrap : sees (bytes 16) (exec .hsv (running .hsv 4 1 [0xFF0000FF, 0x801E140A, 0x7FFFFF00, 0x01646464])) =
    some [0x00, 0x00, 0xFF, 0x77, 0x07, 0x1E, 0x80, 0x00, 0xFF, 0x00, 0x00, 0x64, 0x64, 0x64, 0x64, 0x01] := by decide

/-- V-H6, V-H10 and V-H20 under INT. -/
theorem test_hsv_int : hsvPixel .int 0x00FF00FF = [213, 255, 255] ∧ hsvPixel .int 0x00C86432 = [115, 191, 200] ∧
    hsvPixel .int 0x00646364 = [213, 2, 100] := by decide

/-- The worked example of 43_emboss R150: a difference of 255 wraps to 127, and the pixel's own alpha stays. -/
theorem test_emboss_wraps : sees (words 2) (exec .emboss (running .emboss 2 1 [0xFF000000, 0xFFFFFFFF])) =
    some [0xFF808080, 0xFF7F7F7F] := by decide

/-- 43_emboss R153: a difference of -255 gives 129. -/
theorem test_emboss_below : embossPixel (fun k => if k = 0 then 0xFFFFFFFF else 0x80000000) 2 1 = 0x80818181 := by decide

/-- V-B6 and V-B9: three channels, snapshot reads. -/
theorem test_blur_row : sees (words 3) (exec .blur (running .blur 3 1 [0x000000FF, 0x0000FF00, 0x00FF0000])) =
    some [0x00051723, 0x00172317, 0x00231705] := by decide

/-- V-B4 and V-B1. -/
theorem test_blur_small : blurPixel (fun _ => 0xFFFFFFFF) 2 2 3 = 0x63636363 ∧ blurPixel (fun _ => 0xFFFFFFFF) 1 1 0 = 0x23232323 := by decide

/-- V-X2, V-X5, V-X6, V-X9, V-X10: STATUS after a CMD write. -/
theorem test_validation :
    (([(0x1000, 0x00000005), (0, 0x80000001), (0x1002, 1), (0xFFFFFFF8, 1), (0xFFFFFFF0, 1)] : List (Word × Word)).map fun x =>
      sees State.status (step { image 2 2 [] with base := x.1, inputs := [.host (.wr 0x00 4 x.2)] })) =
    [some 0x0000000A, some 0x0000000A, some 0x00000006, some 0x00000006, some 0x00000001] := by decide

/-- V-X7, V-X8 and V-X11: the size and the width checks. -/
theorem test_validation_sizes :
    validateOperands Params.specDefault 2 2 0x1000 3 = .invalidBuffer ∧
    validateOperands Params.specDefault 0x10000 0x10000 0x1000 0 = .invalidBuffer ∧
    validateOperands { Params.specDefault with maxWidth := 4 } 5 1 0x1000 5 = .invalidBuffer ∧
    validateOperands { Params.specDefault with maxWidth := 4 } 4 1 0x1000 4 = .ok := by decide

/-- V-X14 and V-X15: STATUS writes. -/
theorem test_status_write :
    ({ State.reset with done := true, wbusy := true }.writeStatus 0x00000012).status = 0 ∧
    ({ State.reset with done := true, err := .invalidBuffer }.writeStatus 0x0000001F).status = 0x00000004 := by decide

/-- V-X16: a write while BUSY. -/
theorem test_write_while_busy :
    sees State.status (step { pairRunning .grey with inputs := [.host (.wr 0x08 4 9)] }) = some 0x00000011 ∧
    sees State.width (step { pairRunning .grey with inputs := [.host (.wr 0x08 4 9)] }) = some 2 := by decide

/-- `State.withFetchWord` runs the table's word, whatever the operands: at reset it is rejected (V-X1). -/
theorem test_table_word : sees State.status (step (State.reset.withFetchWord 32 1)) = some 0x00000006 := by decide

/-! Witnesses: states and operands that meet the hypotheses of the statements, clause by clause. -/

theorem pair_wf : pair.mem.wf := by decide

theorem pair_inv : pair.Inv := ⟨pair_wf, trivial, trivial⟩

/-- An accepted command keeps the invariant. -/
theorem accept_inv (i : Instr) {s : State} (h : s.Inv) (hv : validateOperands s.params s.width s.height s.base s.len = .ok) :
    (s.accept i).Inv :=
  ⟨h.1, ⟨rfl, rfl, hv, State.snapshot_wf h.1⟩,
    fun hc x hx => State.readByte_snapshot (s := s) hc x ((Region.has_iff _ _).mp hx)⟩

theorem pairRunning_inv (i : Instr) : (pairRunning i).Inv := accept_inv i pair_inv (by decide)

theorem pairRunning_canComplete (i : Instr) : (pairRunning i).canComplete := by
  refine ⟨?_, ?_, ?_⟩ <;> cases i <;> decide

/-- DecodeSelectsExactlyTheFourWords, last clause. -/
theorem test_meets_illegal_word : (5 : Word) ≠ 1 ∧ (5 : Word) ≠ 2 ∧ (5 : Word) ≠ 3 ∧ (5 : Word) ≠ 4 := by decide

/-- StepRunsTheDecodedCommand, each clause; the first also for CommandTransformsTheBuffer's inputs. -/
theorem test_meets_step_runs :
    pair.phase = .idle ∧ decodeWord 3 = .ok .emboss ∧ decodeTableWord 32 4 = some .blur ∧
    isNext (step { pair with inputs := [.host (.wr 0x00 4 3)] }) = true ∧
    (pairRunning .grey).phase = .busy .grey pair.snapshot ∧ (pairRunning .grey).inputs = [] ∧
    isNext (step (pairRunning .grey)) = true ∧
    isNext (step { pairRunning .grey with inputs := [.engine] }) = true := by decide

/-- ResetLeavesTheTableValues and ResetKeepsMemoryOutsideARunningBuffer, both phases. -/
theorem test_meets_reset :
    pair.mem.wf ∧ pair.base.toNat + 4 * pair.pixels ≤ 4294967296 ∧ pair.phase = .idle ∧
    ({ pair with inputs := [.reset] } : State).inputs = .reset :: [] ∧
    (pairRunning .blur).mem.wf ∧ (pairRunning .blur).base.toNat + 4 * (pairRunning .blur).pixels ≤ 4294967296 ∧
    (pairRunning .blur).isBusy = true ∧ 7 < 4 * (pairRunning .blur).pixels := by decide

/-- An address just below the buffer and one just above it. -/
theorem test_meets_outside : pair.outside 8 0x0FFF ∧ pair.outside 8 0x1008 ∧ ¬ pair.outside 8 0x1007 := by
  unfold State.outside
  decide

/-- EveryStepKeepsTheInvariant, EveryStepKeepsTheParameters. -/
theorem test_meets_invariant_step : (pairRunning .hsv).Inv ∧ ∃ t, step (pairRunning .hsv) = .next t :=
  ⟨pairRunning_inv .hsv, _, rfl⟩

/-- MemoryChangesOnlyByStoreOrEndOfCommand: a store and a completion that change a byte. -/
theorem test_meets_memory_changes :
    sees (fun t => readByte t.mem 0x2003) (step { pair with inputs := [.host (.st32 0x2000 0xAB000000)] }) = some 0xAB ∧
    readByte pair.mem 0x2003 = 0 ∧
    sees (fun t => readByte t.mem 0x1000) (step (pairRunning .emboss)) = some 128 ∧
    readByte (pairRunning .emboss).mem 0x1000 = 1 := by decide

/-- OnlyCompletionOrResetEndsACommand: a host read, the completion, a reset. -/
theorem test_meets_command_end :
    sees State.isBusy (step { pairRunning .grey with inputs := [.host (.rd 0x04 4)] }) = some true ∧
    sees State.isBusy (step (pairRunning .grey)) = some false ∧
    sees State.isBusy (step { pairRunning .grey with inputs := [.reset] }) = some false := by decide

/-- IdleEngineStays. -/
theorem test_meets_idle : pair.phase = .idle ∧ pair.inputs = [] := by decide

/-- Not coherent: the first word holds a store not yet written back, the second a result the host has not invalidated. -/
def stale : State :=
  { pair with
    params := { pair.params with memCoherent := false }
    hostStores := [⟨0x1000, 4⟩]
    engineWrites := [⟨0x1004, 4⟩] }

/-- IssueIsOneAtomicStep: a failing and a passing code, and a pending store over which a command is accepted. -/
theorem test_meets_issue :
    pair.overDevice = false ∧ pair.validate 1 = .ok ∧ pair.validate 8 = .illegalOp ∧ pair.phase = .idle ∧
    stale.overDevice = false ∧ stale.validate 1 = .ok ∧ stale.phase = .idle ∧ 4 < 4 * stale.pixels ∧
    anyHas stale.hostStores (stale.base.toNat + 3) = true ∧ anyHas stale.hostStores (stale.base.toNat + 4) = false ∧
    sees State.isBusy (step { stale with inputs := [.host (.wr 0x00 4 1)] }) = some true := by decide

/-- IllegalWordIsRejected. -/
theorem test_meets_illegal_step :
    sees State.status (step { pair with inputs := [.host (.wr 0x00 4 0xFFFFFFFF)] }) = some 0x0000000A := by decide

/-- BadBufferIsRejected: each cause alone, at its boundary. -/
theorem test_meets_bad_buffer :
    (({ pair with base := 0 } : State).base = 0) ∧
    ({ pair with base := 0x1001 } : State).base.toNat % 4 ≠ 0 ∧
    ({ pair with len := 3 } : State).len.toNat ≠ ({ pair with len := 3 } : State).pixels ∧
    ({ pair with base := 0xFFFFFFFC } : State).base.toNat + 4 * pair.len.toNat > 4294967296 ∧
    pair.width.toNat > ({ pair.params with maxWidth := 1 } : Params).maxWidth ∧ pair.phase = .idle := by decide

/-- BadBufferIsRejected, second clause; ZeroAreaCommandChangesNoMemory. -/
theorem test_meets_zero_area :
    (image 0 5 []).phase = .idle ∧ (image 0 5 []).base ≠ 0 ∧ (image 0 5 []).base.toNat % 4 = 0 ∧
    (image 0 5 []).pixels = 0 ∧ (image 0 5 []).len = 0 ∧ (image 0 5 []).width.toNat ≤ (image 0 5 []).params.maxWidth := by
  decide

/-- GoodCommandIsAccepted, CommandTransformsTheBuffer. -/
theorem test_meets_good_command :
    pair.phase = .idle ∧ pair.mem.wf ∧ pair.params.memCoherent = true ∧
    validateOperands pair.params pair.width pair.height pair.base pair.len = .ok ∧ pair.overDevice = false ∧
    anyMeets pair.params.unbacked pair.buffer = false := by decide

theorem test_meets_transform : ({ pair with inputs := [.host (.wr 0x00 4 (encode .blur)), .engine] } : State).Inv := pair_inv

/-- BufferOverDeviceIsRefused: a device at the buffer's last byte, and the window over the buffer. -/
theorem test_meets_over_device :
    ({ pair with params := { pair.params with devices := [⟨0x1007, 1⟩] } } : State).overDevice = true ∧
    ({ pair with params := { pair.params with devices := [⟨0x1008, 1⟩] } } : State).overDevice = false ∧
    ({ pair with params := { pair.params with regBase := 0x1004 } } : State).overDevice = true ∧
    exec .hsv { pair with params := { pair.params with devices := [⟨0x1007, 1⟩] } } = .refused .bufferOverDevice := by
  refine ⟨by decide, by decide, by decide, rfl⟩

/-- UnbackedBufferSticksTheEngine. -/
theorem test_meets_unbacked :
    anyMeets [⟨0x1007, 1⟩] (pairRunning .grey).buffer = true ∧ (pairRunning .grey).isBusy = true := by decide

/-- GreyCompletes, HsvCompletes, EmbossCompletes, BlurCompletes, GreyLeavesGreyPixels, WaitLoopEndsWithTheCompletion. -/
theorem test_meets_completion (i : Instr) :
    (pairRunning i).phase = .busy i pair.snapshot ∧ (pairRunning i).canComplete ∧ 1 < (pairRunning i).pixels ∧
    0 < (pairRunning i).height.toNat ∧ 1 < (pairRunning i).width.toNat :=
  ⟨rfl, pairRunning_canComplete i, by cases i <;> decide, by cases i <;> decide, by cases i <;> decide⟩

/-- HsvTailHoldsTheSnapshot: the first and the last byte of the tail. -/
theorem test_meets_tail :
    (pairRunning .hsv).Inv ∧ (pairRunning .hsv).canComplete ∧ (pairRunning .hsv).params.memCoherent = true ∧
    3 * (pairRunning .hsv).pixels ≤ 6 ∧ 7 < 4 * (pairRunning .hsv).pixels :=
  ⟨pairRunning_inv .hsv, pairRunning_canComplete .hsv, rfl, by decide, by decide⟩

/-- Another place and other memory around it, the same pixels. -/
def elsewhere : State :=
  { pair with
    base := 0x2000
    mem := writeBytes (writeBytes [] 0x2000 (bytesOfWord 0x7F08FF01 ++ bytesOfWord 0xFF1E140A)) 0x3000 [1, 2, 3] }

theorem elsewhere_wf : elsewhere.mem.wf := by decide

/-- ResultDependsOnlyOnTheSnapshot. -/
theorem test_meets_same_snapshot (i : Instr) :
    (elsewhere.accept i).canComplete ∧ (elsewhere.accept i).Inv ∧
    (∀ k, k < (pairRunning i).pixels →
      pixelAt pair.snapshot pair.base k = pixelAt elsewhere.snapshot elsewhere.base k) ∧
    isNext (exec .hsv (elsewhere.accept .hsv)) = true :=
  ⟨⟨elsewhere_wf, by cases i <;> decide, by cases i <;> decide⟩, accept_inv i ⟨elsewhere_wf, trivial, trivial⟩ (by decide), by
    intro k hk
    have : k < 2 := hk
    match k, this with
    | 0, _ => decide
    | 1, _ => decide, by decide⟩

/-- WaitLoopEndsWithTheCompletion: a WAIT while IDLE, a poll while BUSY, and a poll before the engine's turn. -/
theorem test_meets_wait :
    sees (fun t => (t.inputs, t.rdata)) (step { pair with inputs := [.wait 2] }) = some ([], 0x00000000) ∧
    sees (fun t => (t.inputs, t.rdata)) (step { pairRunning .grey with inputs := [.wait 2] }) = some ([.wait 1], 0x00000001) ∧
    sees (fun t => (t.isBusy, t.rdata)) (Host.Core.run Sys2Proof.core 3 { pairRunning .grey with inputs := [.wait 1] }) =
      some (false, 0x00000002) := by decide

/-- StatusWriteClearsOnes and OperandWritesWhileIdle. -/
theorem test_meets_writes :
    sees State.height (step { pair with inputs := [.host (.wr 0x0C 4 7)] }) = some 7 ∧
    sees State.status (step { pair with done := true, inputs := [.host (.wr 0x04 4 2)] }) = some 0 ∧
    isNext (step { pair with inputs := [.host (.wr 0x1C 4 7)] }) = true := by decide

/-- WritesWhileBusyAreDropped, each clause. -/
theorem test_meets_busy_writes :
    (pairRunning .grey).isBusy = true ∧ 0x14 ∈ [0x00, 0x08, 0x0C, 0x10, 0x14] ∧ 0x1C ∈ [0x18, 0x1C] ∧
    sees State.wbusy (step { pairRunning .grey with inputs := [.host (.wr 0x14 4 5)] }) = some true ∧
    sees State.wbusy (step { pairRunning .grey with inputs := [.host (.wr 0x1C 4 5)] }) = some false := by decide

/-- RegisterReadsHaveNoSideEffect: the last slot, and accesses beside it. -/
theorem test_meets_reads :
    (0x1C % 4 = 0 ∧ 0x1C < 32 ∧ 4 = 4) ∧ ¬ (0x20 % 4 = 0 ∧ 0x20 < 32 ∧ 4 = 4) ∧ ¬ (0x04 % 4 = 0 ∧ 0x04 < 32 ∧ 2 = 4) ∧
    sees State.rdata (step { pairRunning .grey with inputs := [.host (.rd 0x04 4)] }) = some 1 ∧
    isNext (step { pair with inputs := [.host (.rd 0x20 4)] }) = false := by decide

/-- WindowStandsAtRegBase: the last slot of a window that ends with the address space. -/
theorem test_meets_window :
    (4294967264 + 0x1C + 4 ≤ 4294967296) ∧
    sees State.rdata (step { pair with
      params := { pair.params with regBase := 4294967264 }
      inputs := [.host (.ld32 0xFFFFFFF4)] }) = some 2 := by decide

/-- WindowStandsAtRegBase, the refusals: an LD8 of the window's last byte, an LD32 that only touches its first, an ST32 inside it. -/
theorem test_meets_window_refusals :
    isNext (step { pair with params := { pair.params with regBase := 0x2000 }, inputs := [.host (.ld8 0x201F)] }) = false ∧
    isNext (step { pair with params := { pair.params with regBase := 0x2000 }, inputs := [.host (.ld8 0x2020)] }) = true ∧
    isNext (step { pair with params := { pair.params with regBase := 0x2000 }, inputs := [.host (.ld32 0x1FFD)] }) = false ∧
    isNext (step { pair with params := { pair.params with regBase := 0x2000 }, inputs := [.host (.st32 0x201E 0)] }) = false := by
  decide

/-- StoreThenLoadReturnsTheWord, at the last four addresses. -/
theorem test_meets_store_load :
    pair.mem.wf ∧ pair.phase = .idle ∧ pair.params.memCoherent = true ∧ target pair.params 0xFFFFFFFC 4 = .memory := by decide

/-- HostAccessToARunningBuffer, each clause; an LD32 half inside the buffer. -/
theorem test_meets_busy_access :
    (pairRunning .blur).isBusy = true ∧ target pair.params 0x1006 4 = .memory ∧
    Region.has pair.buffer (0x1006 + 1) = true ∧ Region.has pair.buffer (0x1006 + 2) = false ∧
    target pair.params 0x1007 1 = .memory ∧ pair.params.memCoherent = true ∧
    isNext (step { pairRunning .blur with inputs := [.host (.st32 0x1006 0)] }) = false ∧
    isNext (step { pairRunning .blur with inputs := [.host (.st32 0x1008 0)] }) = true ∧
    (stale.accept .blur).isBusy = true ∧ Region.has (stale.accept .blur).buffer (0x1006 + 1) = true ∧
    isNext (step { stale.accept .blur with inputs := [.host (.ld32 0x1006)] }) = true := by decide

/-- HostAccessOutsideMemoryStops, each clause. -/
theorem test_meets_stops :
    (0xFFFFFFFD : Word).toNat + 4 > 4294967296 ∧ Region.meets ⟨0x1000, 4⟩ (windowRegion pair.params) = false ∧
    anyMeets [⟨0x1003, 1⟩] ⟨0x1000, 4⟩ = true ∧ anyMeets [⟨0x1004, 1⟩] ⟨0x1000, 4⟩ = false ∧
    isNext (step { pair with params := { pair.params with devices := [⟨0x1003, 1⟩] }, inputs := [.host (.ld8 0x1003)] }) = false ∧
    isNext (step { pair with params := { pair.params with unbacked := [⟨0x1003, 1⟩] }, inputs := [.host (.ld8 0x1003)] }) = false ∧
    isNext (step { pair with params := { pair.params with unbacked := [⟨0x1003, 1⟩] }, inputs := [.host (.ld8 0x1002)] }) = true := by
  decide

/-- HostLoadReturnsMemory and HostStoreStoresItsWord: P2's LD8, and accesses beside a running buffer. -/
theorem test_meets_loads_and_stores :
    sees State.rdata (step { pair with inputs := [.host (.ld8 0x1007)] }) = some 0x000000FF ∧
    sees State.rdata (step { pair with inputs := [.host (.ld32 0x1001)] }) = some 0x0A7F08FF ∧
    target pair.params 0x1008 4 = .memory ∧
    [0, 1, 2, 3].map (fun k => Region.has (pairRunning .blur).buffer (0x1008 + k)) = [false, false, false, false] ∧
    sees (fun t => readByte t.mem 0x100B) (step { pairRunning .blur with inputs := [.host (.st32 0x1008 0x99000000)] }) =
      some 0x99 := by decide

/-- UnmaintainedBytesAreFree: the last pending byte, the first that is not, stale bytes, and an LD32 half over stale bytes. -/
theorem test_meets_unmaintained :
    stale.params.memCoherent = false ∧ stale.base.toNat + 4 * stale.pixels ≤ 4294967296 ∧
    anyHas stale.hostStores (stale.base.toNat + 3) = true ∧ anyHas stale.hostStores (stale.base.toNat + 4) = false ∧
    anyHas stale.engineWrites 0x1004 = true ∧ target stale.params 0x1004 1 = .memory ∧ target stale.params 0x1006 4 = .memory ∧
    anyHas stale.engineWrites (0x1006 + 1) = true ∧ anyHas stale.engineWrites (0x1006 + 2) = false ∧
    isNext (step { stale with inputs := [.host (.ld32 0x1006)] }) = true := by decide

/-- WriteBackMakesStoresVisible: one range over what is pending. -/
theorem test_meets_write_back :
    stale.params.memCoherent = false ∧ stale.phase = .idle ∧ stale.mem.wf ∧
    (List.range 8).map (fun k => anyHas stale.hostStores (0x1000 + k) && !Region.has ⟨0x1000, 4⟩ (0x1000 + k)) =
      List.replicate 8 false := by decide

/-- InvalidationMakesResultsVisible: the stale word in two pieces, the first of them already invalidated. -/
theorem test_meets_invalidate :
    let s := stale.invalidated ⟨0x1004, 2⟩
    s.params.memCoherent = false ∧ s.phase = .idle ∧ s.mem.wf ∧ target s.params 0x1004 4 = .memory ∧
    (List.range 4).map (fun k => anyHas s.engineWrites (0x1004 + k)) = [false, false, true, true] ∧
    (List.range 4).map (fun k => anyHas s.hostStores (0x1004 + k)) = [false, false, false, false] ∧
    (List.range 4).map (fun k => Region.has ⟨0x1006, 2⟩ (0x1004 + k)) = [false, false, true, true] := by decide

/-- A store over a result the host never read (20_memory R59, point 1): written back, the next snapshot sees it, and the host's own
load reads it. -/
theorem test_store_over_unread_result :
    let s := (stale.stored 0x1004 0x11223344).wroteBack ⟨0x1000, 8⟩
    anyHas s.hostStores 0x1004 = false ∧ s.engineSees 4 = 0x44 ∧ s.engineSees 7 = 0x11 ∧ s.loadByte 0x1004 1 = 0x33 := by decide

/-- MaintenanceSettlesByteByByte: a byte lost to each maintenance, and one in a running buffer that neither settles. -/
theorem test_meets_maintenance :
    let both := { stale with engineWrites := [⟨0x1003, 4⟩] }
    both.clobbered ⟨0x1000, 8⟩ = [0x1003] ∧ both.discarded ⟨0x1002, 8⟩ = [0x1002, 0x1003] ∧
    anyHas ((stale.accept .grey).wroteBack ⟨0x1000, 8⟩).hostStores 0x1000 = true ∧ stale.mem.wf := by decide

/-- TruncateChannelDropsTheFraction: denominators, and the largest BLUR sum. -/
theorem test_meets_truncate : 0 < (⟨-7, 2⟩ : Ratio).den ∧ 0 < (⟨1, 256⟩ : Ratio).den ∧ 65280 ≤ 65280 := by decide

/-- BinaryLumaRoundsToNearestEven: the last exact number, a tie rounded down and one rounded up. -/
theorem test_meets_rounding :
    2 ^ 53 - 1 < 2 ^ 53 ∧ 2 ^ (52 + 1) ≤ 2 ^ 53 + 1 ∧ 2 ^ 53 + 1 < 2 ^ (53 + 1) ∧ fl (2 ^ 53 + 1) = 2 ^ 53 ∧
    fl (2 ^ 53 + 3) = 2 ^ 53 + 4 := by decide

/-- WrappingHueFollowsTheBranches, SignedHueFollowsTheBranches, SaturationInBothModes: V-H5, V-H19, V-H11, V-H10 reach every branch. -/
theorem test_meets_hue :
    hue .u8Wrap 0 0 0 = 0 ∧ hue .u8Wrap 100 100 99 = 43 ∧ hue .u8Wrap 100 200 50 = 128 ∧ hue .u8Wrap 50 100 200 = 158 ∧
    hue .int 0 0 0 = 0 ∧ hue .int 100 100 99 = 43 ∧ hue .int 100 200 50 = 85 ∧ hue .int 50 100 200 = 115 ∧
    saturation .u8Wrap 0 0 0 = 0 ∧ saturation .int 100 100 99 = 2 := by decide

/-- NeighbourIsTheClampedTopLeft: pixel (0, 0), the last column, the last pixel of a 3 by 2 image. -/
theorem test_meets_neighbour : topLeft 3 0 = 0 ∧ topLeft 3 2 = 1 ∧ topLeft 3 3 = 0 ∧ topLeft 3 5 = 1 := by decide

/-- EmbossLevelWraps: the ends of its three ranges. -/
theorem test_meets_emboss_ranges :
    (diffMax 0x0000007F 0 = 127 ∧ embossLevel 0x0000007F 0 = 255) ∧ (diffMax 0x00000080 0 = 128 ∧ embossLevel 0x00000080 0 = 0) ∧
    (diffMax 0 0x00808080 = -128 ∧ embossLevel 0 0x00808080 = 0) ∧
    (diffMax 0 0x00818181 = -129 ∧ embossLevel 0 0x00818181 = 255) := by decide

/-- FlatFieldBlursByItsWeight: V-B2's corner and centre, and the weights at both ends. -/
theorem test_meets_flat :
    (blurChannel (fun _ => 0xC8C8C8C8) 5 5 unpackRed 0 = 0x5E) ∧ (blurChannel (fun _ => 0xC8C8C8C8) 5 5 unpackRed 12 = 0xC8) ∧
    12 < 5 * 5 ∧ 2 ≤ 12 / 5 ∧ 12 / 5 + 3 ≤ 5 ∧ 2 ≤ 12 % 5 ∧ 12 % 5 + 3 ≤ 5 ∧ 5 ≤ 5 ∧ 4 < 5 := by decide

end Sys2Proof.Tests
end

section
/-! PROOFS. The state's registers: register reads and refused register transactions (10_state R30), and the blur accumulator
(10_state R37). -/

namespace Sys2Proof.Machine

/-! The slots of the register window (10_state R23). -/

theorem regAccessWf_iff (off size : Nat) : regAccessWf off size = true ↔ off % 4 = 0 ∧ off < 32 ∧ size = 4 := by
  simp only [regAccessWf, Bool.and_eq_true, beq_iff_eq, decide_eq_true_eq]
  tauto

/-- An access that is no aligned 32-bit access inside the window reaches no slot (10_state R30). -/
theorem regAt_of_not_wf {off size : Nat} (h : ¬ (off % 4 = 0 ∧ off < 32 ∧ size = 4)) : regAt off size = none := by
  rw [regAt, if_neg (mt (regAccessWf_iff off size).mp h)]

/-- Each aligned offset reaches a slot, and a read of the slot returns the register that stands there; CMD and the reserved slots
read 0. -/
theorem exists_regAt_readReg (s : State) {off : Nat} (h : off % 4 = 0 ∧ off < 32) :
    ∃ r, regAt off 4 = some r ∧
      s.readReg r = if off = 0x04 then s.status else if off = 0x08 then s.width else if off = 0x0C then s.height
        else if off = 0x10 then s.base else if off = 0x14 then s.len else 0 := by
  have slots : off = 0x00 ∨ off = 0x04 ∨ off = 0x08 ∨ off = 0x0C ∨ off = 0x10 ∨ off = 0x14 ∨ off = 0x18 ∨ off = 0x1C := by
    omega
  rcases slots with rfl | rfl | rfl | rfl | rfl | rfl | rfl | rfl <;> exact ⟨_, rfl, rfl⟩

@[simp] theorem State.withInputs_readReg (s : State) (ins : List Input) (r : Reg) :
    (s.withInputs ins).readReg r = s.readReg r := by
  cases r <;> rfl

/-! A register transaction as one step. -/

theorem step_rd_slot {s : State} {off size : Nat} {rest : List Input} {r : Reg}
    (h : s.inputs = .host (.rd off size) :: rest) (hr : regAt off size = some r) :
    step s = .next ((s.withInputs rest).returned (s.readReg r)) := by
  rw [step_host h, hostTurn, hr, windowRead, State.withInputs_readReg, perform]

theorem step_rd_refused {s : State} {off size : Nat} {rest : List Input}
    (h : s.inputs = .host (.rd off size) :: rest) (hr : regAt off size = none) : step s = .refused .windowAccess := by
  rw [step_host h, hostTurn, hr, windowRead, perform]

theorem step_wr_refused {s : State} {off size : Nat} {v : Word} {rest : List Input}
    (h : s.inputs = .host (.wr off size v) :: rest) (hr : regAt off size = none) : step s = .refused .windowAccess := by
  rw [step_host h, hostTurn, hr, windowWrite, perform]

/-- Settles O34: an aligned read of a slot only sets `rdata`; any other access reaches no slot and is refused. -/
theorem registerReadsHaveNoSideEffect : Obligations.RegisterReadsHaveNoSideEffect := by
  intro s off size rest
  refine ⟨fun hin => ⟨?aligned, fun hbad => step_rd_refused hin (regAt_of_not_wf hbad)⟩,
    fun v hin hbad => step_wr_refused hin (regAt_of_not_wf hbad)⟩
  rintro ⟨halign, hoff, rfl⟩
  obtain ⟨r, hslot, hval⟩ := exists_regAt_readReg s ⟨halign, hoff⟩
  rw [step_rd_slot hin hslot, hval]
  rfl

/-! The blur sum and its 16-bit accumulator (44_blur R165, 10_state R37). -/

/-- Summing over the kernel's 25 positions is summing over rows, then columns. -/
theorem sum_map_window (f : Nat × Nat → Nat) :
    (window.map f).sum = ∑ ky ∈ Finset.range 5, ∑ kx ∈ Finset.range 5, f (ky, kx) := by
  simp [window, List.range_succ, Finset.sum_range_succ, Nat.add_assoc]

theorem blurSum_eq_sum_tap (px : Nat → Word) (w h : Nat) (ch : Word → Byte) (i : Nat) :
    blurSum px w h ch i =
      ∑ ky ∈ Finset.range 5, ∑ kx ∈ Finset.range 5, tap px w h ch (rowOf w i) (colOf w i) ky kx := by
  simp only [blurSum, tap_eq, rowOf, colOf]

/-- The accumulator is the blur sum modulo 2^16. -/
theorem blurAcc_eq_ofNat (px : Nat → Word) (w h : Nat) (ch : Word → Byte) (i : Nat) :
    blurAcc px w h ch i = BitVec.ofNat 16 (blurSum px w h ch i) := by
  rw [blurSum_eq_sum_tap, ← sum_map_window (fun k => tap px w h ch (rowOf w i) (colOf w i) k.1 k.2)]
  exact (foldl_accumulate _ window 0).trans (by rw [Nat.zero_add])

theorem tap_le (px : Nat → Word) (w h : Nat) (ch : Word → Byte) (row col ky kx : Nat) :
    tap px w h ch row col ky kx ≤ kernelAt ky kx * 255 := by
  rw [tap_eq]
  split_ifs
  · exact Nat.mul_le_mul_left _ (Nat.le_of_lt_succ (ch _).isLt)
  · exact Nat.zero_le _

/-- The kernel's weights sum to 256 (44_blur R166). -/
theorem sum_kernelAt : ∑ ky ∈ Finset.range 5, ∑ kx ∈ Finset.range 5, kernelAt ky kx = 256 := by decide

theorem blurSum_le (px : Nat → Word) (w h : Nat) (ch : Word → Byte) (i : Nat) : blurSum px w h ch i ≤ 65280 := by
  calc blurSum px w h ch i
      = ∑ ky ∈ Finset.range 5, ∑ kx ∈ Finset.range 5, tap px w h ch (rowOf w i) (colOf w i) ky kx :=
        blurSum_eq_sum_tap px w h ch i
    _ ≤ ∑ ky ∈ Finset.range 5, ∑ kx ∈ Finset.range 5, kernelAt ky kx * 255 :=
        Finset.sum_le_sum fun _ _ => Finset.sum_le_sum fun _ _ => tap_le ..
    _ = (∑ ky ∈ Finset.range 5, ∑ kx ∈ Finset.range 5, kernelAt ky kx) * 255 := by simp only [Finset.sum_mul]
    _ = 65280 := by rw [sum_kernelAt]

theorem toNat_blurAcc (px : Nat → Word) (w h : Nat) (ch : Word → Byte) (i : Nat) :
    (blurAcc px w h ch i).toNat = blurSum px w h ch i := by
  have hle := blurSum_le px w h ch i
  rw [blurAcc_eq_ofNat, BitVec.toNat_ofNat, Nat.mod_eq_of_lt (by omega)]

/-- Settles O59: the weights sum to 256 and a sample is at most 255, so the sum modulo 2^16 is the sum. -/
theorem blurAccumulatorNeverOverflows : Obligations.BlurAccumulatorNeverOverflows :=
  fun px w h ch i => ⟨toNat_blurAcc px w h ch i, blurSum_le px w h ch i⟩

end Sys2Proof.Machine
end

section
/-! PROOFS. Buffer memory: the bytes of a word (20_memory R53), and that a command's result depends on the snapshot alone
(20_memory R57). -/

namespace Sys2Proof.Machine

/-! The bytes of a word (20_memory R53). -/

/-- Settles O36: a word read from memory is its four bytes, and the unpacking functions take them out again. -/
theorem memoryIsLittleEndian : Obligations.MemoryIsLittleEndian := by
  intro m a
  refine ⟨?_, unpack_wordOfBytes ..⟩
  rw [readWord, toNat_wordOfBytes]
  ring

/-- A byte of the buffer is a byte of the pixel it lies in. -/
theorem readByte_eq_getD_pixelAt (m : Memory) (base : Word) (k : Nat) :
    readByte m (base + BitVec.ofNat 32 k) = (bytesOfWord (pixelAt m base (k / 4))).getD (k % 4) 0 := by
  obtain ⟨-, red, green, blue, alpha⟩ := memoryIsLittleEndian m (base + BitVec.ofNat 32 (4 * (k / 4)))
  have address : base + BitVec.ofNat 32 k = base + BitVec.ofNat 32 (4 * (k / 4)) + BitVec.ofNat 32 (k % 4) := by
    rw [BitVec.add_assoc, ← BitVec.ofNat_add, Nat.div_add_mod]
  rw [address]
  have hlt : k % 4 < 4 := Nat.mod_lt k (by decide)
  generalize k % 4 = j at hlt ⊢
  match j, hlt with
  | 0, _ => rw [BitVec.add_zero]; exact red.symm
  | 1, _ => exact green.symm
  | 2, _ => exact blue.symm
  | 3, _ => exact alpha.symm

/-! A command's result is a function of the snapshot's pixels, W, H and the two arithmetic modes. -/

section Congr

variable {w h : Nat} {px px' : Nat → Word}

theorem pixelBytes_congr {f g : Nat → Word} {n : Nat} (hfg : ∀ i, i < n → f i = g i) : pixelBytes f n = pixelBytes g n :=
  List.flatMap_congr fun i hi => by rw [hfg i (List.mem_range.mp hi)]

theorem greyResult_congr (m : GreyArith) (hpx : ∀ i, i < w * h → px i = px' i) : greyResult m px w h = greyResult m px' w h :=
  pixelBytes_congr fun i hi => by rw [hpx i hi]

theorem hsvResult_congr (m : HsvArith) (hpx : ∀ i, i < w * h → px i = px' i) : hsvResult m px w h = hsvResult m px' w h :=
  List.flatMap_congr fun i hi => by rw [hpx i (List.mem_range.mp hi)]

/-- EMBOSS's neighbour never stands behind the pixel (43_emboss R151). -/
theorem topLeft_le_self (w i : Nat) : topLeft w i ≤ i :=
  calc topLeft w i
      ≤ rowOf w i * w + colOf w i := Nat.add_le_add (Nat.mul_le_mul_right w (Nat.sub_le _ 1)) (Nat.sub_le _ 1)
    _ = i := Nat.div_add_mod' i w

theorem embossResult_congr (hpx : ∀ i, i < w * h → px i = px' i) : embossResult px w h = embossResult px' w h :=
  pixelBytes_congr fun i hi => by
    rw [embossPixel, embossPixel, hpx i hi, hpx _ (lt_of_le_of_lt (topLeft_le_self w i) hi)]

/-- BLUR takes its samples inside the image only (44_blur R167). -/
theorem tap_congr (hpx : ∀ i, i < w * h → px i = px' i) (ch : Word → Byte) (row col ky kx : Nat) :
    tap px w h ch row col ky kx = tap px' w h ch row col ky kx := by
  rw [tap_eq, tap_eq]
  refine if_ctx_congr Iff.rfl (fun hin => ?_) fun _ => rfl
  obtain ⟨⟨-, hy⟩, -, hx⟩ := hin
  have inside : (row + ky - 2) * w + (col + kx - 2) < w * h :=
    calc (row + ky - 2) * w + (col + kx - 2)
        < (row + ky - 2 + 1) * w := by rw [Nat.add_one_mul]; omega
      _ ≤ h * w := Nat.mul_le_mul_right w hy
      _ = w * h := Nat.mul_comm h w
  rw [hpx _ inside]

theorem blurResult_congr (hpx : ∀ i, i < w * h → px i = px' i) : blurResult px w h = blurResult px' w h :=
  pixelBytes_congr fun i _ => by simp only [blurPixel, blurChannel, blurAcc, tap_congr hpx]

theorem resultOf_congr (i : Instr) {p q : Params} (hgrey : p.greyArith = q.greyArith) (hhsv : p.hsvArith = q.hsvArith)
    (hpx : ∀ k, k < w * h → px k = px' k) : resultOf i p px w h = resultOf i q px' w h := by
  cases i with
  | grey => rw [resultOf, resultOf, hgrey, greyResult_congr _ hpx]
  | hsv => rw [resultOf, resultOf, hhsv, hsvResult_congr _ hpx]
  | emboss => exact embossResult_congr hpx
  | blur => exact blurResult_congr hpx

end Congr

/-! The buffer after a completion. -/

theorem length_resultOf (i : Instr) (p : Params) (px : Nat → Word) (w h : Nat) :
    (resultOf i p px w h).length = if i = .hsv then 3 * (w * h) else 4 * (w * h) := by
  cases i with
  | hsv => exact length_hsvResult ..
  | _ => exact pixelBytes_length ..

/-- A byte of the buffer after a completion: the result's byte where there is one, else memory's. -/
theorem readByte_complete {s : State} (hc : s.canComplete) {bs : List Byte} (hl : bs.length ≤ 4 * s.pixels) {k : Nat}
    (hk : k < 4 * s.pixels) :
    readByte (s.complete bs).mem (s.base + BitVec.ofNat 32 k) = bs[k]?.getD (readByte s.mem (s.base + BitVec.ofNat 32 k)) := by
  obtain ⟨hwf, hfit, -⟩ := hc
  have offset : (s.base + BitVec.ofNat 32 k - s.base).toNat = k := by bv_omega
  rw [State.complete_mem, readByte_writeBytes _ _ _ _ hwf (by omega), offset]

/-- While a command runs on a coherent platform, a byte of the buffer is the byte of the snapshot's pixel. -/
theorem State.Inv.readByte_buffer {s : State} {op : Instr} {snap : Memory} (hinv : s.Inv) (hp : s.phase = .busy op snap)
    (hc : s.canComplete) (hm : s.params.memCoherent = true) {k : Nat} (hk : k < 4 * s.pixels) :
    readByte s.mem (s.base + BitVec.ofNat 32 k) = (bytesOfWord (pixelAt snap s.base (k / 4))).getD (k % 4) 0 := by
  obtain ⟨-, -, held⟩ := hinv
  obtain ⟨-, hfit, -⟩ := hc
  rw [State.heldInv, hp] at held
  have hin : Region.has s.buffer (s.base + BitVec.ofNat 32 k).toNat = true := by
    rw [State.buffer_has_iff]
    bv_omega
  rw [← held hm _ hin, readByte_eq_getD_pixelAt]

/-- Settles O28: both commands store the same bytes (`resultOf_congr`), and a byte that HSV does not store is the snapshot's. -/
theorem resultDependsOnlyOnTheSnapshot : Obligations.ResultDependsOnlyOnTheSnapshot := by
  intro i op₁ op₂ snap₁ snap₂ s₁ s₂ t₁ t₂ hp₁ hp₂ hc₁ hc₂ hgrey hhsv hw hh hpx he₁ he₂
  have hN : s₂.pixels = s₁.pixels := by rw [State.pixels, State.pixels, hw, hh]
  obtain ⟨bs, result₁⟩ : ∃ bs, resultOf i s₁.params (pixelAt snap₁ s₁.base) s₁.width.toNat s₁.height.toNat = bs := ⟨_, rfl⟩
  have result₂ : resultOf i s₂.params (pixelAt snap₂ s₂.base) s₂.width.toNat s₂.height.toNat = bs := by
    rw [← result₁, ← hw, ← hh, resultOf_congr i hgrey hhsv hpx]
  have hlen : bs.length = if i = .hsv then 3 * s₁.pixels else 4 * s₁.pixels := result₁ ▸ length_resultOf ..
  have hle : bs.length ≤ 4 * s₁.pixels := result₁ ▸ length_resultOf_le ..
  rw [exec_complete i hp₁ hc₁, result₁] at he₁
  rw [exec_complete i hp₂ hc₂, result₂] at he₂
  cases he₁
  cases he₂
  have byte₁ := fun k (hk : k < 4 * s₁.pixels) => readByte_complete hc₁ hle hk
  have byte₂ := fun k (hk : k < 4 * s₁.pixels) => readByte_complete hc₂ (hN ▸ hle) (hN ▸ hk)
  refine ⟨fun k hk => ?stored, fun hinv₁ hinv₂ hm₁ hm₂ k hk => ?whole⟩
  case stored =>
    rw [← hlen] at hk
    rw [byte₁ k (by omega), byte₂ k (by omega), List.getElem?_eq_getElem hk, Option.getD_some, Option.getD_some]
  case whole =>
    have sameBefore : readByte s₁.mem (s₁.base + BitVec.ofNat 32 k) = readByte s₂.mem (s₂.base + BitVec.ofNat 32 k) := by
      rw [hinv₁.readByte_buffer hp₁ hc₁ hm₁ hk, hinv₂.readByte_buffer hp₂ hc₂ hm₂ (hN ▸ hk), hpx (k / 4) (by omega)]
    rw [byte₁ k hk, byte₂ k hk, sameBefore]

end Sys2Proof.Machine
end

section
/-! PROOFS. The command words: RSVD and OP make up a word, so that a command is decoded from its own word alone (30_encoding R71,
R72), and every other word is ILLEGAL_OP. -/

namespace Sys2Proof

/-- The two fields of a command word are all of it (30_encoding R71). -/
theorem rsvdField_append_opField (c : Word) : (rsvdField c ++ opField c : BitVec 32) = c :=
  (BitVec.extractLsb'_append_extractLsb'_eq_extractLsb' (rfl : 3 = 0 + 3)).trans BitVec.extractLsb'_eq_self

/-- A word is a command's word when RSVD is 0 and OP is the command's opcode. -/
theorem eq_encode {c : Word} {i : Instr} (hrsvd : rsvdField c = 0) (hop : opField c = opcode i) : c = encode i :=
  calc c = (rsvdField c ++ opField c : BitVec 32) := (rsvdField_append_opField c).symm
    _ = encode i := by rw [hrsvd, hop]; rfl

/-- What a word that decodes to a command has in its two fields (30_encoding R72, R74). -/
theorem fields_of_decodeWord_ok {c : Word} {i : Instr} (h : decodeWord c = .ok i) :
    rsvdField c = 0 ∧ opField c = opcode i := by
  unfold decodeWord at h
  split at h
  case isTrue => cases h
  case isFalse hrsvd =>
    refine ⟨not_not.mp hrsvd, BitVec.eq_of_toNat_eq ?_⟩
    split at h <;> cases h <;> assumption

/-- The decoder reads a command from its word. -/
theorem decodeWord_encode (i : Instr) : decodeWord (encode i) = .ok i := by
  cases i <;> rfl

/-- The decoder selects a command from that command's word alone (30_encoding R72). -/
theorem decodeWord_eq_ok_iff {c : Word} {i : Instr} : decodeWord c = .ok i ↔ c = encode i where
  mp h := by
    obtain ⟨hrsvd, hop⟩ := fields_of_decodeWord_ok h
    exact eq_encode hrsvd hop
  mpr h := h ▸ decodeWord_encode i

end Sys2Proof

namespace Sys2Proof.Machine

/-- A word that is no command's word is ILLEGAL_OP (60_exceptions R181 check 1). -/
theorem validate_of_ne_encode {c : Word} (h : ∀ i, c ≠ encode i) (s : State) : s.validate c = .illegalOp := by
  cases hd : decodeWord c with
  | ok i => exact absurd (decodeWord_eq_ok_iff.mp hd) (h i)
  | error e => exact validate_of_error hd s

/-- Settles O2: a command is selected from its own word alone (`decodeWord_eq_ok_iff`), and the four words are the commands'. -/
theorem decodeSelectsExactlyTheFourWords : Obligations.DecodeSelectsExactlyTheFourWords := by
  intro c
  refine ⟨decodeWord_eq_ok_iff, decodeWord_eq_ok_iff, decodeWord_eq_ok_iff, decodeWord_eq_ok_iff, ?illegal⟩
  case illegal =>
    rintro ⟨hgrey, hhsv, hemboss, hblur⟩
    refine validate_of_ne_encode fun i => ?_
    cases i with
    | grey => exact hgrey
    | hsv => exact hhsv
    | emboss => exact hemboss
    | blur => exact hblur

end Sys2Proof.Machine
end

section
/-! PROOFS. pixel_codec: the round-trip law (40_pixel_codec R105), the extrema of three channels (R106, R107) and
`truncate_channel` over the rationals (R108). -/

namespace Sys2Proof.Machine

/-! The round-trip law (40_pixel_codec R105). -/

/-- Settles O46: packing four bytes is putting them in memory order, so both halves are the laws of `wordOfBytes`. -/
theorem packUnpackRoundTrip : Obligations.PackUnpackRoundTrip := by
  refine ⟨fun r g b a => ?_, fun w => ?_⟩
  · rw [pack_eq_wordOfBytes]
    exact unpack_wordOfBytes r g b a
  · rw [pack_eq_wordOfBytes]
    exact wordOfBytes_bytesOfWord w

/-! The extrema of three channels (40_pixel_codec R106, R107) and their difference (42_hsv R131). -/

@[simp] theorem toNat_maxChannel (r g b : Byte) : (maxChannel r g b).toNat = max r.toNat (max g.toNat b.toNat) :=
  (BitVec.toNat_ofNat ..).trans <| Nat.mod_eq_of_lt (max_lt r.isLt (max_lt g.isLt b.isLt))

@[simp] theorem toNat_minChannel (r g b : Byte) : (minChannel r g b).toNat = min r.toNat (min g.toNat b.toNat) :=
  (BitVec.toNat_ofNat ..).trans <| Nat.mod_eq_of_lt (min_lt_of_left_lt r.isLt)

theorem minChannel_le_maxChannel (r g b : Byte) : minChannel r g b ≤ maxChannel r g b := by
  rw [BitVec.le_def, toNat_minChannel, toNat_maxChannel]
  exact (min_le_left _ _).trans (le_max_left _ _)

/-- The difference does not wrap (42_hsv R131). -/
theorem toNat_hsvDiff (r g b : Byte) :
    (hsvDiff r g b).toNat = (maxChannel r g b).toNat - (minChannel r g b).toNat :=
  BitVec.toNat_sub_of_le (minChannel_le_maxChannel r g b)

/-- Settles O48: the extremum of three bytes is a byte, and the least is at most the greatest, so `diff` has no wrap. -/
theorem extremaOfThreeChannels : Obligations.ExtremaOfThreeChannels := fun r g b =>
  ⟨toNat_maxChannel r g b, toNat_minChannel r g b, toNat_hsvDiff r g b, minChannel_le_maxChannel r g b⟩

/-! `truncate_channel` (40_pixel_codec R108). -/

/-- `factor * value + bias` as one fraction, over the product of the three denominators. -/
def affine (value factor bias : Ratio) : Ratio where
  num := factor.num * value.num * bias.den + bias.num * (factor.den * value.den)
  den := factor.den * value.den * bias.den

theorem affine_den_pos {v f b : Ratio} (hv : 0 < v.den) (hf : 0 < f.den) (hb : 0 < b.den) : 0 < (affine v f b).den :=
  Nat.mul_pos (Nat.mul_pos hf hv) hb

/-- The one fraction is the rational that the three fractions make. -/
theorem affine_num_div_den {v f b : Ratio} (hv : 0 < v.den) (hf : 0 < f.den) (hb : 0 < b.den) :
    ((affine v f b).num / (affine v f b).den : ℚ) =
      (f.num / f.den : ℚ) * (v.num / v.den : ℚ) + (b.num / b.den : ℚ) := by
  have hv' : (v.den : ℚ) ≠ 0 := Nat.cast_ne_zero.mpr hv.ne'
  have hf' : (f.den : ℚ) ≠ 0 := Nat.cast_ne_zero.mpr hf.ne'
  have hb' : (b.den : ℚ) ≠ 0 := Nat.cast_ne_zero.mpr hb.ne'
  simp only [affine]
  push_cast
  field_simp

/-- `truncate_channel` tests the fraction against 0 and 255 before it divides. -/
theorem truncateChannel_eq (v f b : Ratio) :
    truncateChannel v f b =
      if (affine v f b).num < 0 then 0
      else if (255 * (affine v f b).den : Nat) < (affine v f b).num then 255
      else BitVec.ofInt 8 ((affine v f b).num / (affine v f b).den) := rfl

/-- `truncate_channel` in integers: the floor division, clamped to [0, 255]. -/
theorem toNat_truncateChannel {v f b : Ratio} (hden : 0 < (affine v f b).den) :
    ((truncateChannel v f b).toNat : ℤ) = max 0 (min ((affine v f b).num / (affine v f b).den) 255) := by
  rw [truncateChannel_eq]
  generalize affine v f b = q at hden ⊢
  have hpos : (0 : ℤ) < q.den := Int.natCast_pos.mpr hden
  split_ifs with hneg hbig
  · have below : q.num / (q.den : ℤ) < 0 := Int.ediv_neg_of_neg_of_pos hneg hpos
    rw [max_eq_left (min_le_of_left_le below.le)]
    rfl
  · have above : 255 ≤ q.num / (q.den : ℤ) := (Int.le_ediv_iff_mul_le hpos).mpr (by push_cast at hbig; exact hbig.le)
    rw [min_eq_right above]
    rfl
  · have low : 0 ≤ q.num / (q.den : ℤ) := Int.ediv_nonneg (not_lt.mp hneg) hpos.le
    have high : q.num / (q.den : ℤ) < 256 := (Int.ediv_lt_iff_lt_mul hpos).mpr (by push_cast at hbig; omega)
    rw [BitVec.toNat_ofInt]
    omega

/-- Clamping a fraction to [0, 255] and dropping the fraction may be done in either order. -/
theorem floor_clamp_div (n : ℤ) (d : ℕ) : ⌊max 0 (min (n / d : ℚ) 255)⌋ = max 0 (min (n / d) 255) := by
  rw [Int.floor_mono.map_max, Int.floor_mono.map_min, Rat.floor_intCast_div_natCast, Int.floor_zero, Int.floor_ofNat]

/-- `truncate_channel(n, 1/256, 0)`, the form BLUR uses (44_blur R165). -/
theorem toNat_truncateChannel_div_256 (n : Nat) :
    (truncateChannel ⟨n, 1⟩ ⟨1, 256⟩ ⟨0, 1⟩).toNat = min 255 (n / 256) := by
  have num : (affine ⟨n, 1⟩ ⟨1, 256⟩ ⟨0, 1⟩).num = n := by simp [affine]
  have den : (affine ⟨n, 1⟩ ⟨1, 256⟩ ⟨0, 1⟩).den = 256 := rfl
  have clamped := toNat_truncateChannel (den ▸ (by decide : 0 < 256))
  rw [num, den] at clamped
  omega

/-- Settles O47: `truncate_channel` clamps the floor (`toNat_truncateChannel`), which is the floor of the clamped rational. -/
theorem truncateChannelDropsTheFraction : Obligations.TruncateChannelDropsTheFraction := by
  refine ⟨fun v f b hv hf hb => ?_, fun n hn => ⟨toNat_truncateChannel_div_256 n, by omega⟩⟩
  rw [toNat_truncateChannel (affine_den_pos hv hf hb), ← floor_clamp_div, affine_num_div_den hv hf hb]

end Sys2Proof.Machine
end

section
/-! PROOFS. rgb_to_greyscale: GREY leaves grey pixels with their alpha (41_greyscale R123), and luma under EXACT (R121). -/

namespace Sys2Proof.Machine

/-! A grey level over the alpha of a word (41_greyscale R120, 43_emboss R154). -/

/-- The level stands in each colour channel, and alpha is kept. -/
theorem unpack_greyWord (level : Byte) (w : Word) :
    unpackRed (greyWord level w) = level ∧ unpackGreen (greyWord level w) = level ∧
      unpackBlue (greyWord level w) = level ∧ unpackAlpha (greyWord level w) = unpackAlpha w := by
  rw [greyWord, pack_eq_wordOfBytes]
  exact unpack_wordOfBytes level level level (unpackAlpha w)

/-- Greyscale invariance of one pixel, in both modes of GREY_ARITH (41_greyscale R123). -/
theorem greyPixel_isGrey_keepsAlpha (m : GreyArith) (w : Word) :
    unpackRed (greyPixel m w) = unpackGreen (greyPixel m w) ∧ unpackGreen (greyPixel m w) = unpackBlue (greyPixel m w) ∧
      unpackAlpha (greyPixel m w) = unpackAlpha w := by
  obtain ⟨red, green, blue, alpha⟩ := unpack_greyWord (luma m (unpackRed w) (unpackGreen w) (unpackBlue w)) w
  exact ⟨red.trans green.symm, green.trans blue.symm, alpha⟩

/-- Pixel `i` of memory after GREY's completion is GREY's output for pixel `i` of the snapshot. -/
theorem pixelAt_complete_grey {s : State} (hc : s.canComplete) (snap : Memory) {i : Nat} (hi : i < s.pixels) :
    pixelAt (s.complete (resultOf .grey s.params (pixelAt snap s.base) s.width.toNat s.height.toNat)).mem s.base i =
      greyPixel s.params.greyArith (pixelAt snap s.base i) :=
  readWord_result hc (fun k => greyPixel s.params.greyArith (pixelAt snap s.base k)) hi

/-- Settles O24: memory holds `greyPixel` of the snapshot's pixel, which is grey and keeps alpha. -/
theorem greyLeavesGreyPixels : Obligations.GreyLeavesGreyPixels := by
  intro s op snap hbusy hc
  refine ⟨_, exec_complete .grey hbusy hc, fun i hi => ?_⟩
  rw [pixelAt_complete_grey hc snap hi]
  exact greyPixel_isGrey_keepsAlpha s.params.greyArith (pixelAt snap s.base i)

/-! Luma under EXACT (41_greyscale R121). -/

/-- The weights sum to 100, so the weighted sum is at most 100 times the largest channel. -/
theorem lumaSum_le_max (r g b : Nat) : 21 * r + 72 * g + 7 * b ≤ 100 * max r (max g b) := by
  have red : r ≤ max r (max g b) := le_max_left _ _
  have green : g ≤ max r (max g b) := (le_max_left _ _).trans (le_max_right _ _)
  have blue : b ≤ max r (max g b) := (le_max_right _ _).trans (le_max_right _ _)
  omega

theorem lumaSum_le (r g b : Byte) : 21 * r.toNat + 72 * g.toNat + 7 * b.toNat ≤ 25500 := by
  have red := r.isLt
  have green := g.isLt
  have blue := b.isLt
  omega

/-- No intermediate wraps in the 15-bit accumulator (10_state R34). -/
theorem toNat_lumaAcc (r g b : Byte) : (lumaAcc r g b).toNat = 21 * r.toNat + 72 * g.toNat + 7 * b.toNat := by
  have hle := lumaSum_le r g b
  rw [lumaAcc]
  bv_omega

theorem toNat_lumaExact (r g b : Byte) :
    (lumaExact r g b).toNat = (21 * r.toNat + 72 * g.toNat + 7 * b.toNat) / 100 := by
  have hle := lumaSum_le r g b
  rw [lumaExact, toNat_lumaAcc, BitVec.toNat_ofNat, Nat.mod_eq_of_lt (by omega)]

/-- Settles O49: the weighted sum fits the accumulator, and the weights sum to 100. -/
theorem exactLumaIsTheFloorOfTheSum : Obligations.ExactLumaIsTheFloorOfTheSum := fun r g b =>
  ⟨lumaSum_le r g b, toNat_lumaAcc r g b, toNat_lumaExact r g b,
    Nat.div_le_of_le_mul (lumaSum_le_max r.toNat g.toNat b.toNat)⟩

end Sys2Proof.Machine
end

section
/-! PROOFS. rgb_to_hsv_converter: hue in both modes of HSV_ARITH (42_hsv R132 to R134) and saturation (R135). -/

namespace Sys2Proof.Machine

/-! One hue branch (42_hsv R133, R134). -/

/-- One hue branch in the mode of HSV_ARITH: both modes narrow modulo 256, so the constant may be any number. -/
def hueBranch : HsvArith → Nat → Byte → Byte → Byte → Byte
  | .u8Wrap, k => hueWrap (BitVec.ofNat 8 k)
  | .int, k => hueInt k

/-- Under U8_WRAP the branch is narrowed once, whatever is narrowed before. -/
theorem toNat_hueBranch_u8Wrap (k : Nat) (x y diff : Byte) :
    (hueBranch .u8Wrap k x y diff).toNat = (k + 43 * ((x.toNat + 256 - y.toNat) % 256 / diff.toNat)) % 256 := by
  have wrapped : (x - y).toNat = (x.toNat + 256 - y.toNat) % 256 := by bv_omega
  rw [hueBranch, hueWrap, BitVec.toNat_add, BitVec.toNat_mul, BitVec.toNat_udiv, BitVec.toNat_ofNat, wrapped]
  exact (Nat.add_mod ..).symm

theorem toNat_hueBranch_int (k : Nat) (x y diff : Byte) :
    ((hueBranch .int k x y diff).toNat : Int) = (k + 43 * Int.tdiv ((x.toNat : Int) - y.toNat) diff.toNat) % 256 := by
  rw [hueBranch, hueInt, BitVec.toNat_ofInt, Int.toNat_of_nonneg (Int.emod_nonneg _ (by decide))]
  rfl

/-- The branches in the order of R132, in either mode: only the branch taken depends on the mode. -/
theorem hue_eq_hueBranch (m : HsvArith) (r g b : Byte) :
    hue m r g b =
      if (hsvDiff r g b).toNat = 0 then 0
      else if (maxChannel r g b).toNat = r.toNat then hueBranch m 0 g b (hsvDiff r g b)
      else if (maxChannel r g b).toNat = g.toNat then hueBranch m 85 b r (hsvDiff r g b)
      else hueBranch m 371 r g (hsvDiff r g b) := by
  cases m <;> simp only [hue, ← BitVec.toNat_inj] <;> rfl

/-- The difference as the extrema of the channels' values (42_hsv R131). -/
theorem toNat_hsvDiff_eq_max_sub_min (r g b : Byte) :
    (hsvDiff r g b).toNat = max r.toNat (max g.toNat b.toNat) - min r.toNat (min g.toNat b.toNat) := by
  rw [toNat_hsvDiff, toNat_maxChannel, toNat_minChannel]

/-! Hue under U8_WRAP (42_hsv R133). -/

theorem wrapped_div_le (n d : Nat) : n % 256 / d ≤ 255 :=
  (Nat.div_le_self _ _).trans (by omega)

/-- A difference that does not wrap is its own residue. -/
theorem wrapped_sub_div_eq_zero {x y d : Nat} (hx : x < 256) (hyx : y ≤ x) (hd : x - y < d) : (x + 256 - y) % 256 / d = 0 :=
  Nat.div_eq_of_lt (by omega)

/-- Settles O53: the branches of `hue_eq_hueBranch`, each narrowed once. -/
theorem wrappingHueFollowsTheBranches : Obligations.WrappingHueFollowsTheBranches := by
  intro r g b cmax diff q
  refine ⟨?branches, fun x hx y _ => ⟨wrapped_div_le _ _, wrapped_sub_div_eq_zero ?byte⟩⟩
  case branches =>
    simp only [hue_eq_hueBranch, apply_ite BitVec.toNat, toNat_hueBranch_u8Wrap, toNat_hsvDiff_eq_max_sub_min,
      toNat_maxChannel, Nat.zero_add]
    rfl
  case byte =>
    simp only [List.mem_cons, List.not_mem_nil, or_false] at hx
    rcases hx with rfl | rfl | rfl <;> exact BitVec.isLt _

/-! Hue under INT (42_hsv R134). -/

/-- Two numbers between `lo` and `hi` differ by less than `hi - lo`, unless they are the two ends. -/
theorem tdiv_sub_cases {x y lo hi : Int} (hx : lo ≤ x ∧ x ≤ hi) (hy : lo ≤ y ∧ y ≤ hi) (hne : hi - lo ≠ 0) :
    Int.tdiv (x - y) (hi - lo) = 0 ∨
      (Int.tdiv (x - y) (hi - lo) = 1 ∧ x = hi ∧ y = lo) ∨ (Int.tdiv (x - y) (hi - lo) = -1 ∧ y = hi ∧ x = lo) := by
  rcases (by omega : (x = hi ∧ y = lo) ∨ (y = hi ∧ x = lo) ∨ (x - y).natAbs < (hi - lo).natAbs) with
    ⟨rfl, rfl⟩ | ⟨rfl, rfl⟩ | small
  · exact .inr (.inl ⟨Int.tdiv_self hne, rfl, rfl⟩)
  · refine .inr (.inr ⟨?_, rfl, rfl⟩)
    rw [← neg_sub, Int.neg_tdiv, Int.tdiv_self hne]
  · exact .inl (Int.natAbs_eq_zero.mp ((Int.natAbs_tdiv ..).trans (Nat.div_eq_of_lt small)))

theorem natCast_toNat_maxChannel (r g b : Byte) :
    ((maxChannel r g b).toNat : Int) = max (r.toNat : Int) (max (g.toNat : Int) b.toNat) := by
  rw [toNat_maxChannel, Nat.cast_max, Nat.cast_max]

theorem natCast_toNat_minChannel (r g b : Byte) :
    ((minChannel r g b).toNat : Int) = min (r.toNat : Int) (min (g.toNat : Int) b.toNat) := by
  rw [toNat_minChannel, Nat.cast_min, Nat.cast_min]

theorem natCast_toNat_hsvDiff (r g b : Byte) :
    ((hsvDiff r g b).toNat : Int) = (maxChannel r g b).toNat - (minChannel r g b).toNat := by
  rw [toNat_hsvDiff, Nat.cast_sub (minChannel_le_maxChannel r g b)]

theorem minChannel_le_and_le_maxChannel {r g b x : Byte} (hx : x ∈ [r, g, b]) :
    (minChannel r g b).toNat ≤ x.toNat ∧ x.toNat ≤ (maxChannel r g b).toNat := by
  simp only [List.mem_cons, List.not_mem_nil, or_false] at hx
  rcases hx with rfl | rfl | rfl <;> simp

/-- The quotient of two channels' difference is 0, or 1 or -1 between the greatest and the least channel. -/
theorem channel_tdiv_hsvDiff {r g b x y : Byte} (hx : x ∈ [r, g, b]) (hy : y ∈ [r, g, b]) {hi d : Int}
    (hhi : (maxChannel r g b).toNat = hi) (hd : (hsvDiff r g b).toNat = d) (hne : d ≠ 0) :
    Int.tdiv ((x.toNat : Int) - y.toNat) d ∈ [-1, 0, 1] ∧
      (Int.tdiv ((x.toNat : Int) - y.toNat) d = 1 → (x.toNat : Int) = hi ∧ (y.toNat : Int) = hi - d) ∧
      (Int.tdiv ((x.toNat : Int) - y.toNat) d = -1 → (y.toNat : Int) = hi ∧ (x.toNat : Int) = hi - d) := by
  obtain ⟨xlow, xhigh⟩ := minChannel_le_and_le_maxChannel hx
  obtain ⟨ylow, yhigh⟩ := minChannel_le_and_le_maxChannel hy
  have hdiff := natCast_toNat_hsvDiff r g b
  have quotient := tdiv_sub_cases (x := x.toNat) (y := y.toNat) (lo := hi - d) (hi := hi) (by omega) (by omega) (by omega)
  rw [sub_sub_cancel] at quotient
  rcases quotient with hq | ⟨hq, hends⟩ | ⟨hq, hends⟩ <;> rw [hq]
  · simp
  · exact ⟨by simp, fun _ => hends, fun h => absurd h (by decide)⟩
  · exact ⟨by simp, fun h => absurd h (by decide), fun _ => hends⟩

/-- The three hues of a branch: its constant narrowed, and 43 above and below it. -/
theorem mem_branchHues (k : Nat) {q : Int} (hq : q ∈ [-1, 0, 1]) {n : Nat} (hn : (n : Int) = (k + 43 * q) % 256) :
    n ∈ [(k + 213) % 256, k % 256, (k + 43) % 256] := by
  simp only [List.mem_cons, List.not_mem_nil, or_false] at hq ⊢
  rcases hq with rfl | rfl | rfl <;> omega

/-- The branches under INT, in integers. -/
theorem toNat_hue_int (r g b : Byte) :
    ((hue .int r g b).toNat : Int) =
      let q := fun x y : Byte => Int.tdiv ((x.toNat : Int) - y.toNat) (hsvDiff r g b).toNat
      if ((hsvDiff r g b).toNat : Int) = 0 then 0
      else if ((maxChannel r g b).toNat : Int) = r.toNat then 43 * q g b % 256
      else if ((maxChannel r g b).toNat : Int) = g.toNat then (85 + 43 * q b r) % 256
      else (371 + 43 * q r g) % 256 := by
  simp only [hue_eq_hueBranch, apply_ite BitVec.toNat, Nat.cast_ite, toNat_hueBranch_int, Int.natCast_inj, Int.natCast_eq_zero,
    Nat.cast_zero, zero_add]
  rfl

/-- Settles O54: the branches of `toNat_hue_int`, their quotients by `channel_tdiv_hsvDiff`, and so the hues by `mem_branchHues`. -/
theorem signedHueFollowsTheBranches : Obligations.SignedHueFollowsTheBranches := by
  intro r g b cmax diff q out
  have hmax : ((maxChannel r g b).toNat : Int) = cmax := natCast_toNat_maxChannel r g b
  have hdiff : ((hsvDiff r g b).toNat : Int) = diff := by
    rw [natCast_toNat_hsvDiff, hmax, natCast_toNat_minChannel]
  have branches := toNat_hue_int r g b
  rw [hmax, hdiff] at branches
  have quotient (hne : diff ≠ 0) {x y : Byte} (hx : x ∈ [r, g, b]) (hy : y ∈ [r, g, b]) :=
    channel_tdiv_hsvDiff hx hy hmax hdiff hne
  refine ⟨branches, fun hne => ⟨fun red => ?red, fun nred green => ?green, fun nred ngreen => ?blue⟩,
    fun hne _ hx _ hy => quotient hne hx hy⟩
  case red =>
    rw [if_neg hne, if_pos red, ← zero_add (43 * _)] at branches
    exact List.mem_rotate (n := 1).mpr (mem_branchHues 0 (quotient hne (by simp) (by simp)).1 branches)
  case green =>
    rw [if_neg hne, if_neg nred, if_pos green] at branches
    exact mem_branchHues 85 (quotient hne (by simp) (by simp)).1 branches
  case blue =>
    rw [if_neg hne, if_neg nred, if_neg ngreen] at branches
    exact mem_branchHues 371 (quotient hne (by simp) (by simp)).1 branches

/-! Saturation (42_hsv R135). -/

/-- The product is narrowed before the division. Where the greatest channel is 0 so is the quotient by it. -/
theorem toNat_saturation_u8Wrap (r g b : Byte) :
    (saturation .u8Wrap r g b).toNat = 255 * (hsvDiff r g b).toNat % 256 / (maxChannel r g b).toNat := by
  rw [saturation]
  split_ifs with black
  · rw [black]
    exact (Nat.div_zero _).symm
  · rw [BitVec.toNat_udiv, BitVec.toNat_mul]
    rfl

theorem mul_hsvDiff_div_maxChannel_le (r g b : Byte) : 255 * (hsvDiff r g b).toNat / (maxChannel r g b).toNat ≤ 255 :=
  Nat.div_le_of_le_mul <| by
    rw [toNat_hsvDiff, Nat.mul_comm]
    exact Nat.mul_le_mul_right _ (Nat.sub_le ..)

theorem toNat_saturation_int (r g b : Byte) :
    (saturation .int r g b).toNat = 255 * (hsvDiff r g b).toNat / (maxChannel r g b).toNat := by
  have hle := mul_hsvDiff_div_maxChannel_le r g b
  rw [saturation]
  split_ifs with black
  · rw [black]
    exact (Nat.div_zero _).symm
  · rw [BitVec.toNat_ofNat, Nat.mod_eq_of_lt (by omega)]

/-- Settles O55: the quotients of the two modes are 0 for a black pixel, where they divide by 0. -/
theorem saturationInBothModes : Obligations.SaturationInBothModes := by
  intro r g b cmax diff
  have hmax : (maxChannel r g b).toNat = cmax := toNat_maxChannel r g b
  have hdiff : (hsvDiff r g b).toNat = diff := toNat_hsvDiff_eq_max_sub_min r g b
  have byte : diff < 256 := hdiff ▸ (hsvDiff r g b).isLt
  have wrap := toNat_saturation_u8Wrap r g b
  have int := toNat_saturation_int r g b
  have hle := mul_hsvDiff_div_maxChannel_le r g b
  rw [hmax, hdiff] at wrap int hle
  refine ⟨fun black => ⟨?nodiff, ?wrap, ?int⟩, fun _ => ⟨wrap, int, hle⟩, ?narrowed⟩
  case nodiff => exact Nat.le_zero.mp (black ▸ Nat.sub_le ..)
  case wrap => rw [wrap, black, Nat.div_zero]
  case int => rw [int, black, Nat.div_zero]
  case narrowed => split_ifs <;> omega

end Sys2Proof.Machine
end

section
/-! PROOFS. emboss_filter: the clamped top-left neighbour (43_emboss R151), and the differences with the grey level's narrowing
(R152, R153). -/

namespace Sys2Proof.Machine

/-! The neighbour (43_emboss R151). -/

section Neighbour

variable {w h row col : Nat}

theorem rowOf_mul_add (hcol : col < w) : rowOf w (row * w + col) = row := by
  rw [rowOf, Nat.add_comm, Nat.add_mul_div_right _ _ (Nat.zero_lt_of_lt hcol), Nat.div_eq_of_lt hcol, Nat.zero_add]

theorem colOf_mul_add (hcol : col < w) : colOf w (row * w + col) = col :=
  Nat.mul_add_mod_of_lt hcol

theorem topLeft_mul_add (hcol : col < w) : topLeft w (row * w + col) = (row - 1) * w + (col - 1) := by
  rw [topLeft, rowOf_mul_add hcol, colOf_mul_add hcol]

/-- Neither summand grows by the clamping, so the indices agree only where row and column both stay. -/
theorem topLeft_mul_add_eq_self_iff (hcol : col < w) : topLeft w (row * w + col) = row * w + col ↔ row = 0 ∧ col = 0 := by
  have rows : (row - 1) * w ≤ row * w := Nat.mul_le_mul_right w (Nat.sub_le row 1)
  rw [topLeft_mul_add hcol, add_eq_add_iff_eq_and_eq rows (Nat.sub_le col 1), Nat.mul_left_inj (Nat.ne_zero_of_lt hcol)]
  omega

/-- Row-major indices stay inside the image. -/
theorem mul_add_lt_pixels (hrow : row < h) (hcol : col < w) : row * w + col < w * h := by
  rw [Nat.add_comm, Nat.mul_comm row]
  exact Nat.add_mul_lt_mul_of_lt_of_lt hcol hrow

end Neighbour

/-- Settles O56: the index is `topLeft_mul_add`, at or before the pixel, which lies inside the image. -/
theorem neighbourIsTheClampedTopLeft : Obligations.NeighbourIsTheClampedTopLeft := by
  intro w h row col hrow hcol i
  refine ⟨?index, topLeft_le_self w i, topLeft_mul_add_eq_self_iff hcol,
    (topLeft_le_self w i).trans_lt (mul_add_lt_pixels hrow hcol)⟩
  have clamp (n : Nat) : (max (n : Int) 1 - 1).toNat = n - 1 := by omega
  rw [clamp, clamp]
  exact topLeft_mul_add hcol

/-! The differences (43_emboss R152) and the narrowing of the grey level (R153). -/

theorem channelDiff_mem_Icc (x y : Byte) : channelDiff x y ∈ Set.Icc (-255) 255 := by
  have hx := x.isLt
  have hy := y.isLt
  constructor <;> rw [channelDiff] <;> omega

/-- The greatest of the three differences is one of them. -/
theorem diffMax_mem_Icc (w u : Word) : diffMax w u ∈ Set.Icc (-255) 255 := by
  obtain ⟨hr, hr'⟩ := channelDiff_mem_Icc (unpackRed w) (unpackRed u)
  obtain ⟨hg, hg'⟩ := channelDiff_mem_Icc (unpackGreen w) (unpackGreen u)
  obtain ⟨hb, hb'⟩ := channelDiff_mem_Icc (unpackBlue w) (unpackBlue u)
  exact ⟨le_max_of_le_left hr, max_le hr' (max_le hg' hb')⟩

theorem toNat_embossLevel (w u : Word) : ((embossLevel w u).toNat : Int) = (128 + diffMax w u) % 256 := by
  rw [embossLevel, BitVec.toNat_ofInt, Int.toNat_of_nonneg (Int.emod_nonneg _ (by decide))]
  rfl

/-- Settles O57: the level is the residue of `toNat_embossLevel`, and the bounds of `diff_max` say how often it wraps. -/
theorem embossLevelWraps : Obligations.EmbossLevelWraps := by
  intro w u d
  obtain ⟨low, high⟩ := diffMax_mem_Icc w u
  have level := toNat_embossLevel w u
  exact ⟨fun ch => channelDiff_mem_Icc (ch w) (ch u), rfl, low, high, level, fun _ _ => by omega, fun _ => by omega,
    fun _ => by omega⟩

end Sys2Proof.Machine
end

section
/-! PROOFS. gaussian_blur_5x5: the kernel (44_blur R166), the division by 256, and the blur of a flat field (R168). -/

namespace Sys2Proof.Machine

/-! The kernel (44_blur R166). -/

theorem kernelAt_eq_mul : ∀ ky < 5, ∀ kx < 5, kernelAt ky kx = [1, 4, 6, 4, 1].getD ky 0 * [1, 4, 6, 4, 1].getD kx 0 := by
  decide

/-- Settles O58: the entries are products of the row with itself, so the kernel is symmetric. -/
theorem kernelIsBinomial : Obligations.KernelIsBinomial := by
  refine ⟨rfl, kernelAt_eq_mul, rfl, fun ky hky kx hkx => ?symmetric⟩
  rw [kernelAt_eq_mul ky hky kx hkx, kernelAt_eq_mul kx hkx ky hky, Nat.mul_comm]

/-! The division by 256 (44_blur R168). -/

theorem blurSum_div_256_le (px : Nat → Word) (w h : Nat) (ch : Word → Byte) (i : Nat) : blurSum px w h ch i / 256 ≤ 255 :=
  Nat.div_le_of_le_mul (blurSum_le px w h ch i)

theorem toNat_blurChannel (px : Nat → Word) (w h : Nat) (ch : Word → Byte) (i : Nat) :
    (blurChannel px w h ch i).toNat = blurSum px w h ch i / 256 := by
  rw [blurChannel, toNat_truncateChannel_div_256, toNat_blurAcc, min_eq_right (blurSum_div_256_le px w h ch i)]

/-! The weight sum of one row or column (44_blur R168). -/

/-- The centre weight is always in range; each other weight where its sample lies between 0 and `n`. -/
theorem weightSum_of_lt {p n : Nat} (hp : p < n) :
    weightSum p n =
      (if 2 ≤ p then 1 else 0) + (if 1 ≤ p then 4 else 0) + 6 + (if p + 1 < n then 4 else 0) +
        (if p + 2 < n then 1 else 0) := by
  have before : 2 ≤ p + 0 ∧ p + 0 - 2 < n ↔ 2 ≤ p := by omega
  have left : 2 ≤ p + 1 ∧ p + 1 - 2 < n ↔ 1 ≤ p := by omega
  have centre : 2 ≤ p + 2 ∧ p + 2 - 2 < n := by omega
  have right : 2 ≤ p + 3 ∧ p + 3 - 2 < n ↔ p + 1 < n := by omega
  have after : 2 ≤ p + 4 ∧ p + 4 - 2 < n ↔ p + 2 < n := by omega
  simp only [weightSum, Finset.sum_range_succ, Finset.sum_range_zero, before, left, if_pos centre, right, after, Nat.zero_add]
  rfl

theorem weightSum_interior {p n : Nat} (low : 2 ≤ p) (high : p + 3 ≤ n) : weightSum p n = 16 := by
  rw [weightSum_of_lt (by omega), if_pos low, if_pos (by omega), if_pos (by omega), if_pos (by omega)]

/-- Where `n` is at least 5 a sample is missing at one end only. -/
theorem weightSum_of_five_le {p n : Nat} (hn : 5 ≤ n) (hp : p < n) :
    weightSum p n = if p = 0 ∨ p = n - 1 then 11 else if p = 1 ∨ p = n - 2 then 15 else 16 := by
  rw [weightSum_of_lt hp]
  split_ifs <;> omega

/-! The flat field (44_blur R168). -/

section FlatField

variable {px : Nat → Word} {w h : Nat} {ch : Word → Byte} {c : Byte}

/-- On a flat field the taps are a product: the row's weight where the row is in range, the column's likewise, and the level. -/
theorem tap_flat (flat : ∀ k, k < w * h → ch (px k) = c) (row col : Nat) {ky kx : Nat} (hky : ky < 5) (hkx : kx < 5) :
    tap px w h ch row col ky kx =
      (if 2 ≤ row + ky ∧ row + ky - 2 < h then [1, 4, 6, 4, 1].getD ky 0 else 0) *
        (if 2 ≤ col + kx ∧ col + kx - 2 < w then [1, 4, 6, 4, 1].getD kx 0 else 0) * c.toNat := by
  rw [tap_eq]
  by_cases hrow : 2 ≤ row + ky ∧ row + ky - 2 < h
  · by_cases hcol : 2 ≤ col + kx ∧ col + kx - 2 < w
    · rw [if_pos ⟨hrow, hcol⟩, if_pos hrow, if_pos hcol, flat _ (mul_add_lt_pixels hrow.2 hcol.2), kernelAt_eq_mul ky hky kx hkx]
    · rw [if_neg (mt And.right hcol), if_neg hcol, Nat.mul_zero, Nat.zero_mul]
  · rw [if_neg (mt And.left hrow), if_neg hrow, Nat.zero_mul, Nat.zero_mul]

/-- The double sum of products is the product of the row's and the column's weight sums. -/
theorem blurSum_flat (flat : ∀ k, k < w * h → ch (px k) = c) (i : Nat) :
    blurSum px w h ch i = weightSum (i / w) h * weightSum (i % w) w * c.toNat := by
  rw [blurSum_eq_sum_tap, weightSum, weightSum, Finset.sum_mul_sum]
  simp only [Finset.sum_mul]
  exact Finset.sum_congr rfl fun _ hky => Finset.sum_congr rfl fun _ hkx =>
    tap_flat flat _ _ (Finset.mem_range.mp hky) (Finset.mem_range.mp hkx)

theorem toNat_blurChannel_flat (flat : ∀ k, k < w * h → ch (px k) = c) (i : Nat) :
    (blurChannel px w h ch i).toNat = weightSum (i / w) h * weightSum (i % w) w * c.toNat / 256 := by
  rw [toNat_blurChannel, blurSum_flat flat]

/-- Both weight sums of an interior pixel are 16, and 16 * 16 is the divisor. -/
theorem blurChannel_flat_interior (flat : ∀ k, k < w * h → ch (px k) = c) {i : Nat} (top : 2 ≤ i / w) (bottom : i / w + 3 ≤ h)
    (left : 2 ≤ i % w) (right : i % w + 3 ≤ w) : blurChannel px w h ch i = c := by
  apply BitVec.eq_of_toNat_eq
  rw [toNat_blurChannel_flat flat, weightSum_interior top bottom, weightSum_interior left right]
  exact Nat.mul_div_cancel_left c.toNat (by decide)

end FlatField

/-- Settles O60: the sum over 256 fits a byte; on a flat field the sum is a product of weight sums, which `weightSum_of_five_le`
gives for long rows. -/
theorem flatFieldBlursByItsWeight : Obligations.FlatFieldBlursByItsWeight := by
  refine ⟨fun px w h ch i => ⟨blurSum_le px w h ch i, toNat_blurChannel px w h ch i, min_eq_right (blurSum_div_256_le px w h ch i)⟩,
    fun px w h ch c i _ flat => ⟨toNat_blurChannel_flat flat i, blurChannel_flat_interior flat⟩,
    fun n p => weightSum_of_five_le, ?shortRows⟩
  decide

end Sys2Proof.Machine
end

section
/-! PROOFS. Exceptions: words and operands that are rejected at issue (60_exceptions R182, R183), and register writes while BUSY
(60_exceptions R188). -/

namespace Sys2Proof.Machine

/-! Operands (60_exceptions R183). -/

theorem issue_of_bad_operands {s : State} (hv : validateOperands s.params s.width s.height s.base s.len ≠ .ok) (i : Instr) :
    issue i s = .next (s.reject .invalidBuffer) := by
  obtain ⟨-, e⟩ | ⟨ok, -, -⟩ | ⟨ok, -, -⟩ := issue_cases i s
  · exact e
  · exact absurd ok hv
  · exact absurd ok hv

theorem issue_of_good_operands {s : State} (hv : validateOperands s.params s.width s.height s.base s.len = .ok)
    (hd : s.overDevice = false) (i : Instr) : issue i s = .next (s.accept i) := by
  rw [issue, validate_encode, hv, hd]
  rfl

/-- Operands of zero area pass the checks when BASE and WIDTH do: the buffer is empty, so it ends in the address space. -/
theorem validateOperands_zero_area {s : State} (hne : s.base ≠ 0) (halign : s.base.toNat % 4 = 0) (harea : s.pixels = 0)
    (hlen : s.len = 0) (hwidth : s.width.toNat ≤ s.params.maxWidth) :
    validateOperands s.params s.width s.height s.base s.len = .ok := by
  have hlen0 : s.len.toNat = 0 := by rw [hlen]; rfl
  have harea0 : s.width.toNat * s.height.toNat = 0 := harea
  have hbase := s.base.isLt
  rw [(validateOperands_iff ..).1, hlen0, harea0]
  simp only [hne, halign, false_or, ne_eq, not_true_eq_false]
  omega

/-- Settles O16: bad operands are `validateOperands_iff`'s list; a zero-area buffer passes it and is empty, so it lies over no
device. -/
theorem badBufferIsRejected : Obligations.BadBufferIsRejected := by
  constructor
  case left =>
    intro s i hidle hbad
    have hv : validateOperands s.params s.width s.height s.base s.len ≠ .ok := fun ok =>
      (validateOperands_iff ..).1.mp ok hbad
    rw [exec_idle i hidle, issue_of_bad_operands hv]
    rfl
  case right =>
    intro s i hidle hne halign harea hlen hwidth
    have hv := validateOperands_zero_area hne halign harea hlen hwidth
    have hd : s.overDevice = false := anyMeets_empty _ s harea
    exact ⟨s.accept i, (exec_idle i hidle).trans (issue_of_good_operands hv hd i), rfl⟩

/-! A register write as one step. -/

theorem step_wr_slot {s : State} {off size : Nat} {v : Word} {rest : List Input} {r : Reg}
    (h : s.inputs = .host (.wr off size v) :: rest) (hr : regAt off size = some r) :
    step s = perform (writeReg r v (s.withInputs rest)) := by
  rw [step_host h, hostTurn, hr, windowWrite]

/-- A word that fails check 1, written to CMD while IDLE, is rejected (60_exceptions R182): a command's word fails no check but the
operands'. -/
theorem cmdWrite_of_illegal {s : State} {c : Word} (hidle : s.phase = .idle) (hc : s.validate c = .illegalOp) :
    cmdWrite c s = .settle (.next (s.reject .illegalOp)) := by
  rw [cmdWrite, s.isBusy_of_idle hidle, hc]
  cases hd : decodeWord c with
  | error e => rfl
  | ok i =>
    rw [decodeWord_eq_ok_iff.mp hd, validate_encode] at hc
    rcases (validateOperands_iff s.params s.width s.height s.base s.len).2 with h | h <;> rw [h] at hc <;> cases hc

/-- Settles O15: a word other than the four is ILLEGAL_OP whatever the operands (`decodeSelectsExactlyTheFourWords`). -/
theorem illegalWordIsRejected : Obligations.IllegalWordIsRejected := by
  intro s c rest hidle hin hgrey hhsv hemboss hblur
  obtain ⟨-, -, -, -, illegal⟩ := decodeSelectsExactlyTheFourWords c
  have hidle' : (s.withInputs rest).phase = .idle := hidle
  rw [step_wr_slot hin (r := .cmd) rfl, writeReg, cmdWrite_of_illegal hidle' (illegal ⟨hgrey, hhsv, hemboss, hblur⟩ _)]
  rfl

/-- While BUSY a write of CMD or of an operand register is dropped (60_exceptions R188). -/
theorem writeReg_busy {s : State} (hbusy : s.isBusy = true) {r : Reg} (hr : r ∈ [Reg.cmd, .width, .height, .base, .len])
    (v : Word) : writeReg r v s = .settle (.next s.dropWrite) := by
  simp only [List.mem_cons, List.not_mem_nil, or_false] at hr
  rcases hr with rfl | rfl | rfl | rfl | rfl <;> simp only [writeReg, cmdWrite, hbusy, if_true]

/-- The offsets of CMD and of the operand registers (10_state R23). -/
theorem exists_regAt_of_droppable {off : Nat} (h : off ∈ [0x00, 0x08, 0x0C, 0x10, 0x14]) :
    ∃ r ∈ [Reg.cmd, .width, .height, .base, .len], regAt off 4 = some r := by
  revert off
  decide

/-- Settles O33: the offset decides the slot, and the slot whether the write is dropped. -/
theorem writesWhileBusyAreDropped : Obligations.WritesWhileBusyAreDropped := by
  intro s off v rest hbusy hin
  have hbusy' : (s.withInputs rest).isBusy = true := hbusy
  refine ⟨fun hoff => ?dropped, fun hoff => ?status, fun hoff => ?reserved⟩
  case dropped =>
    obtain ⟨r, hr, hslot⟩ := exists_regAt_of_droppable hoff
    rw [step_wr_slot hin hslot, writeReg_busy hbusy' hr]
    rfl
  case status =>
    subst hoff
    rw [step_wr_slot hin (r := .status) rfl, writeReg, perform]
  case reserved =>
    obtain rfl | rfl := List.mem_pair.mp hoff
    · exact step_wr_slot hin (r := .reserved18) rfl
    · exact step_wr_slot hin (r := .reserved1C) rfl

end Sys2Proof.Machine
end

section
/-! PROOFS. Reset: what the reset input leaves in the registers (70_reset R200), and the rejection of a command issued with BASE = 0
(60_exceptions R183). -/

namespace Sys2Proof.Machine

/-! The registers after reset (70_reset R200). -/

theorem State.resetWith_status (p : Params) : (State.resetWith p).status = 0 :=
  (State.resetWith p).status_eq

theorem State.resetWith_readReg (p : Params) (r : Reg) : (State.resetWith p).readReg r = 0 := by
  cases r
  case status => exact State.resetWith_status p
  all_goals rfl

/-- A reset in any state of the engine leaves the registers as power-on does. -/
theorem State.afterReset_readReg (s : State) (r : Reg) : s.afterReset.readReg r = (State.resetWith s.params).readReg r := by
  cases r <;> rfl

/-! A command with BASE = 0 (60_exceptions R181, check 2). -/

theorem exec_of_base_zero {s : State} (hidle : s.phase = .idle) (hbase : s.base = 0) (i : Instr) :
    exec i s = .next (s.reject .invalidBuffer) := by
  have hv : validateOperands s.params s.width s.height s.base s.len ≠ .ok := fun ok =>
    (validateOperands_iff ..).1.mp ok (.inl hbase)
  rw [exec_idle i hidle, issue_of_bad_operands hv]

/-- STATUS after a rejection right after reset: DONE and ERR = INVALID_BUFFER, BUSY and WBUSY 0 (10_state R25). -/
theorem State.afterReset_reject_status (s : State) : (s.afterReset.reject .invalidBuffer).status = 0x00000006 :=
  (s.afterReset.reject .invalidBuffer).status_eq

/-- Settles O5: the state the reset input leaves is IDLE with BASE = 0, so `exec_of_base_zero` rejects whatever command comes next. -/
theorem resetLeavesTheTableValues : Obligations.ResetLeavesTheTableValues := by
  constructor
  case left =>
    exact fun p => ⟨State.resetWith_readReg p, rfl, State.resetWith_status p⟩
  case right =>
    intro s rest hin
    have hreg (r : Reg) : (s.withInputs rest).afterReset.readReg r = 0 :=
      ((s.withInputs rest).afterReset_readReg r).trans (State.resetWith_readReg _ r)
    exact ⟨(s.withInputs rest).afterReset, step_reset hin, hreg, rfl, hreg .status, rfl, rfl, fun i =>
      ⟨exec_of_base_zero rfl rfl i, State.afterReset_reject_status _⟩⟩

end Sys2Proof.Machine
end

section
/-! PROOFS. The command word as bytes: decoding and encoding undo each other (30_encoding R70 to R75). -/

namespace Sys2Proof

/-! Four bytes as a word (20_memory R53). -/

theorem bytesOfWord_wordOfBytes (b0 b1 b2 b3 : Byte) : bytesOfWord (wordOfBytes b0 b1 b2 b3) = [b0, b1, b2, b3] := by
  obtain ⟨h0, h1, h2, h3⟩ := Machine.unpack_wordOfBytes b0 b1 b2 b3
  rw [bytesOfWord, List.cons.injEq, List.cons.injEq, List.cons.injEq, List.cons.injEq]
  exact ⟨h0, h1, h2, h3, rfl⟩

/-! Bytes (30_encoding R70, R75). -/

/-- Bytes that hold no whole command word are truncated. -/
theorem decodeBytes_cases (bs : List Byte) :
    (∃ w rest, bs = bytesOfWord w ++ rest) ∨ decodeBytes bs = .error .truncated := by
  match bs with
  | [] | [_] | [_, _] | [_, _, _] => exact .inr rfl
  | b0 :: b1 :: b2 :: b3 :: rest => exact .inl ⟨wordOfBytes b0 b1 b2 b3, rest, by rw [bytesOfWord_wordOfBytes]; rfl⟩

theorem decodeBytes_append (w : Word) (rest : List Byte) :
    decodeBytes (bytesOfWord w ++ rest) = (decodeWord w).map (·, rest) := by
  have word := Machine.wordOfBytes_bytesOfWord w
  simp only [bytesOfWord, List.cons_append, List.nil_append, decodeBytes, word]
  cases decodeWord w <;> rfl

/-- The four bytes of a word decode to the command whose word it is. -/
theorem decodeBytes_append_eq_ok_iff {w : Word} {bs rest : List Byte} {i : Instr} :
    decodeBytes (bytesOfWord w ++ bs) = .ok (i, rest) ↔ w = encode i ∧ bs = rest := by
  rw [decodeBytes_append, ← decodeWord_eq_ok_iff]
  cases decodeWord w <;> simp [Except.map]

theorem decodeBytes_eq_ok_iff {i : Instr} {bs rest : List Byte} :
    decodeBytes bs = .ok (i, rest) ↔ bs = encodeBytes i ++ rest where
  mp h := by
    rcases decodeBytes_cases bs with ⟨w, bs, rfl⟩ | truncated
    · obtain ⟨rfl, rfl⟩ := decodeBytes_append_eq_ok_iff.mp h
      rfl
    · cases truncated.symm.trans h
  mpr h := h ▸ decodeBytes_append_eq_ok_iff.mpr ⟨rfl, rfl⟩

/-! Table words. -/

theorem decodeTableWord_eq_some_iff {n w : Nat} {i : Instr} : decodeTableWord n w = some i ↔ tableWord n w = encode i := by
  rw [decodeTableWord, ← List.append_nil (bytesOfWord _), decodeBytes_append, ← decodeWord_eq_ok_iff]
  cases decodeWord (tableWord n w) <;> simp [Except.map]

theorem tableWord_eq_iff {w : Nat} {c : Word} : tableWord 32 w = c ↔ w % 4294967296 = c.toNat := by
  rw [← BitVec.toNat_inj, tableWord, BitVec.toNat_ofNat, Nat.mod_mod]
  exact Iff.rfl

/-- Settles O3: bytes that decode hold a whole word, and a word decodes to the command whose word it is. -/
theorem decodeAndEncodeAgree : Obligations.DecodeAndEncodeAgree :=
  ⟨fun _ _ _ => decodeBytes_eq_ok_iff, fun _ _ => decodeTableWord_eq_some_iff.trans tableWord_eq_iff⟩

/-- Settles O1: the four words are the commands' own, the others fail in RSVD or in OP. -/
theorem fewCommandWordsDecode : Obligations.FewCommandWordsDecode :=
  ⟨decodeWord_encode .grey, decodeWord_encode .hsv, decodeWord_encode .emboss, decodeWord_encode .blur, rfl, rfl, rfl, rfl⟩

end Sys2Proof
end

section
/-! PROOFS. What every step keeps: the parameters (00_scope R6), the invariant, memory outside what a step stores (20_memory R51, R56,
R63; 70_reset R201, R202), and a running command until its completion or a reset (60_exceptions R185, R197). -/

namespace Sys2Proof.Machine

@[simp] theorem State.withInputs_withInputs (s : State) (ins ins' : List Input) :
    (s.withInputs ins).withInputs ins' = s.withInputs ins' := rfl

theorem State.withInputs_inputs_self (s : State) : s.withInputs s.inputs = s := rfl

/-! The parameters (00_scope R6). -/

theorem exec_keeps_params {i : Instr} {s t : State} (h : exec i s = .next t) : t.params = s.params := by
  obtain ⟨-, rfl⟩ | ⟨-, -, rfl⟩ | ⟨_, _, -, rfl⟩ := exec_cases h <;> rfl

/-- Settles O9: no way a step can go on (`step_cases`) touches the parameters. -/
theorem everyStepKeepsTheParameters : Obligations.EveryStepKeepsTheParameters := by
  intro s t h
  cases step_cases h with
  | idled _ _ ht => exact ht ▸ rfl
  | host op rest _ ht => exact (hostTurn_settle ht).keeps_params
  | polled _ ht => exact ht ▸ rfl
  | reset _ _ ht => exact ht ▸ rfl
  | ran i ins ht _ => exact exec_keeps_params (s := s.withInputs ins) ht

/-! The invariant, phase by phase. -/

theorem Memory.wf_nil : Memory.wf [] := ⟨List.Pairwise.nil, fun _ hc => absurd hc List.not_mem_nil⟩

theorem State.inv_of_idle {s : State} (hwf : s.mem.wf) (hidle : s.phase = .idle) : s.Inv := by
  refine ⟨hwf, ?_, ?_⟩
  · rw [State.busyInv, hidle]
    trivial
  · rw [State.heldInv, hidle]
    trivial

theorem State.inv_busy_iff {s : State} {op : Instr} {snap : Memory} (hbusy : s.phase = .busy op snap) :
    s.Inv ↔ s.mem.wf ∧
      (s.done = false ∧ s.err = .ok ∧ validateOperands s.params s.width s.height s.base s.len = .ok ∧ snap.wf) ∧
      (s.params.memCoherent = true →
        ∀ x : Word, Region.has s.buffer x.toNat = true → readByte snap x = readByte s.mem x) := by
  rw [State.Inv, State.memInv, State.busyInv, State.heldInv, hbusy]

/-- A running command's buffer ends inside the address space (60_exceptions R181, check 5). -/
theorem State.Inv.fits {s : State} (hinv : s.Inv) (hbusy : s.isBusy = true) : s.base.toNat + 4 * s.pixels ≤ 4294967296 := by
  obtain ⟨op, snap, hp⟩ := s.isBusy_iff.mp hbusy
  obtain ⟨-, ⟨-, -, hv, -⟩, -⟩ := (State.inv_busy_iff hp).mp hinv
  exact State.fits_of_ok hv

/-- A command accepted while IDLE latches the buffer it finds (60_exceptions R180). -/
theorem State.Inv.accept {s : State} (hinv : s.Inv)
    (hv : validateOperands s.params s.width s.height s.base s.len = .ok) (i : Instr) : (s.accept i).Inv := by
  obtain ⟨hwf, -, -⟩ := hinv
  refine (State.inv_busy_iff rfl).mpr ⟨hwf, ⟨rfl, rfl, hv, State.snapshot_wf hwf⟩, fun hm x hx => ?_⟩
  exact State.readByte_snapshot (s := s) hm x ((State.buffer_has_iff s _).mp hx)

theorem exec_keeps_inv {i : Instr} {s t : State} (hinv : s.Inv) (h : exec i s = .next t) : t.Inv := by
  obtain ⟨hwf, -, -⟩ := id hinv
  obtain ⟨hidle, rfl⟩ | ⟨-, hv, rfl⟩ | ⟨_, _, -, rfl⟩ := exec_cases h
  · exact State.inv_of_idle hwf hidle
  · exact hinv.accept hv i
  · exact State.inv_of_idle (writeBytes_wf _ _ hwf) rfl

/-! Reset (70_reset R200 to R202). -/

theorem State.afterReset_readReg_eq_zero (s : State) (r : Reg) : s.afterReset.readReg r = 0 :=
  (s.afterReset_readReg r).trans (State.resetWith_readReg _ r)

theorem State.memAfterReset_idle {s : State} (hidle : s.phase = .idle) : s.memAfterReset = s.mem := by
  rw [State.memAfterReset, if_neg (by simp [s.isBusy_of_idle hidle])]

theorem State.memAfterReset_busy {s : State} (hbusy : s.isBusy = true) :
    s.memAfterReset =
      writeBytes s.mem s.base ((List.range (4 * s.pixels)).map (fun k => Config.freeByte (s.draws + k))) :=
  if_pos hbusy

theorem State.memAfterReset_wf {s : State} (hwf : s.mem.wf) : s.memAfterReset.wf := by
  unfold State.memAfterReset
  split
  · exact writeBytes_wf _ _ hwf
  · exact hwf

theorem State.readByte_memAfterReset_outside {s : State} (hwf : s.mem.wf) (hbusy : s.isBusy = true)
    (hfit : s.base.toNat + 4 * s.pixels ≤ 4294967296) {x : Word} (hx : s.outside (4 * s.pixels) x) :
    readByte s.memAfterReset x = readByte s.mem x := by
  rw [State.memAfterReset_busy hbusy]
  exact readByte_off_stored _ _ _ _ hwf (by simpa using hfit) (by simpa [State.outside] using hx)

theorem State.readByte_memAfterReset_inside {s : State} (hwf : s.mem.wf) (hbusy : s.isBusy = true)
    (hfit : s.base.toNat + 4 * s.pixels ≤ 4294967296) {k : Nat} (hk : k < 4 * s.pixels) :
    readByte s.memAfterReset (s.base + BitVec.ofNat 32 k) = Config.freeByte (s.draws + k) := by
  rw [State.memAfterReset_busy hbusy, readByte_stored _ _ _ k hwf (by simpa using hfit) (by simpa using hk)]
  simp

/-! A host transaction beside a running command. -/

theorem HostActed.keeps_mem_wf {s t : State} (h : HostActed s t) (hwf : s.mem.wf) : t.mem.wf := by
  obtain e | ⟨a, v, -, -, e⟩ | ⟨r, as, e, -⟩ := h.mem_cases <;> rw [e]
  · exact hwf
  · exact writeBytes_wf _ _ hwf
  · exact writeFree_wf _ _ hwf

/-- No host transaction changes a byte of a running command's buffer: a store there is no next state (70_reset R204), and a
maintenance settles nothing there. -/
theorem HostActed.keeps_running_buffer {s t : State} (h : HostActed s t) (hwf : s.mem.wf) (hbusy : s.isBusy = true) {x : Word}
    (hx : Region.has s.buffer x.toNat = true) : readByte t.mem x = readByte s.mem x := by
  obtain e | ⟨a, v, hfit, hoff, e⟩ | ⟨r, as, e, settled⟩ := h.mem_cases <;> rw [e]
  · rw [hbusy, Bool.true_and, ← Bool.not_eq_true, Region.meets_iff] at hoff
    rw [Region.has_iff] at hx
    refine readByte_off_stored _ _ _ _ hwf hfit ?_
    simp only [bytesOfWord_length] at hoff ⊢
    omega
  · refine readByte_writeFree _ _ _ hwf fun hmem => ?_
    have := (settled x hmem).2
    rw [State.settles_has, hbusy, hx] at this
    simp at this

theorem HostActed.keeps_inv {s t : State} (h : HostActed s t) (hinv : s.Inv) : t.Inv := by
  obtain ⟨hwf, -, -⟩ := id hinv
  cases hp : s.phase with
  | idle => exact State.inv_of_idle (h.keeps_mem_wf hwf) (h.keeps_idle hp)
  | busy op snap =>
    obtain ⟨-, ⟨hdone, herr, hv, hsnap⟩, held⟩ := (State.inv_busy_iff hp).mp hinv
    obtain ⟨ephase, ewidth, eheight, ebase, elen, eerr, edone⟩ := h.keeps_command hp
    have ebuffer : t.buffer = s.buffer := by rw [State.buffer, State.buffer, State.pixels, State.pixels, ewidth, eheight, ebase]
    rw [State.inv_busy_iff (ephase.trans hp), ewidth, eheight, ebase, elen, eerr, ebuffer, h.keeps_params]
    refine ⟨h.keeps_mem_wf hwf, ⟨edone hdone, herr, hv, hsnap⟩, fun hm x hx => ?_⟩
    rw [held hm x hx, h.keeps_running_buffer hwf (s.isBusy_of_busy hp) hx]

/-- Settles O8: a command keeps the invariant (`exec_keeps_inv`), and so does a host transaction (`HostActed.keeps_inv`); after a
reset the engine is IDLE. -/
theorem everyStepKeepsTheInvariant : Obligations.EveryStepKeepsTheInvariant := by
  intro s t hinv h
  cases step_cases h with
  | idled ins _ ht => exact ht ▸ hinv
  | host op rest _ ht => exact (hostTurn_settle ht).keeps_inv (s := s.withInputs rest) hinv
  | polled ins ht => exact ht ▸ hinv
  | reset rest _ ht =>
    obtain ⟨hwf, -, -⟩ := hinv
    exact ht ▸ State.inv_of_idle (State.memAfterReset_wf (s := s.withInputs rest) hwf) rfl
  | ran i ins ht _ => exact exec_keeps_inv (s := s.withInputs ins) hinv ht

/-- Settles O7: after reset the engine is IDLE and no byte is listed. -/
theorem invariantHoldsAtReset : Obligations.InvariantHoldsAtReset := fun _ =>
  State.inv_of_idle Memory.wf_nil rfl

/-- Settles O12: with no input left the turn is the engine's. -/
theorem idleEngineStays : Obligations.IdleEngineStays := by
  intro s hidle hin
  rw [step_nil hin, engineTurn_idle hidle, perform]

/-! Bytes that a step changes. -/

/-- An address that is not outside the buffer is in it. -/
theorem State.buffer_has_of_not_outside {s : State} {x : Word} (hx : ¬ s.outside (4 * s.pixels) x) :
    Region.has s.buffer x.toNat = true := by
  rw [State.outside] at hx
  rw [State.buffer_has_iff]
  omega

/-- A command stores into the buffer only (20_memory R51). -/
theorem readByte_result_outside (i : Instr) {s : State} (hwf : s.mem.wf) (hfit : s.base.toNat + 4 * s.pixels ≤ 4294967296)
    (px : Nat → Word) {x : Word} (hx : s.outside (4 * s.pixels) x) :
    readByte (writeBytes s.mem s.base (resultOf i s.params px s.width.toNat s.height.toNat)) x = readByte s.mem x := by
  have hlen : _ ≤ 4 * s.pixels := length_resultOf_le i s.params px s.width.toNat s.height.toNat
  rw [State.outside] at hx
  exact readByte_off_stored _ _ _ _ hwf (by omega) (by omega)

theorem exec_mem_change {i : Instr} {s t : State} {x : Word} (hinv : s.Inv) (h : exec i s = .next t)
    (hx : readByte t.mem x ≠ readByte s.mem x) :
    s.isBusy = true ∧ t.phase = .idle ∧ Region.has s.buffer x.toNat = true := by
  obtain ⟨-, rfl⟩ | ⟨-, -, rfl⟩ | ⟨op, snap, hp, rfl⟩ := exec_cases h
  · exact absurd rfl hx
  · exact absurd rfl hx
  · have hbusy := s.isBusy_of_busy hp
    have hfit := hinv.fits hbusy
    obtain ⟨hwf, -, -⟩ := hinv
    exact ⟨hbusy, rfl, State.buffer_has_of_not_outside fun hout => hx (readByte_result_outside i hwf hfit _ hout)⟩

/-- Settles O10: a byte changes by an ST32 or over a pending store (`hostTurn_mem`), by a completion (`exec_mem_change`) or by a reset
while BUSY; each says where. -/
theorem memoryChangesOnlyByStoreOrEndOfCommand : Obligations.MemoryChangesOnlyByStoreOrEndOfCommand := by
  intro s t x hinv h hx
  obtain ⟨hwf, -, -⟩ := id hinv
  cases step_cases h with
  | idled ins _ ht => exact absurd (ht ▸ rfl) hx
  | polled ins ht => exact absurd (ht ▸ rfl) hx
  | ran i ins ht _ => exact .inr (.inl (exec_mem_change (s := s.withInputs ins) hinv ht hx))
  | reset rest hin ht =>
    subst ht
    cases hbusy : s.isBusy with
    | false =>
      have hmem : (s.withInputs rest).afterReset.mem = s.mem :=
        State.memAfterReset_idle (s := s.withInputs rest) (s.not_isBusy_iff.mp hbusy)
      exact absurd (hmem ▸ rfl) hx
    | true =>
      refine .inr (.inl ⟨rfl, rfl, State.buffer_has_of_not_outside fun hout => hx ?_⟩)
      exact State.readByte_memAfterReset_outside (s := s.withInputs rest) hwf hbusy (hinv.fits hbusy) hout
  | host op rest hin ht =>
    obtain e | ⟨a, v, rfl, hfit, e⟩ | ⟨r, as, hop, e, settled⟩ := hostTurn_mem ht <;> rw [e] at hx
    · exact absurd rfl hx
    · refine .inl ⟨a, v, rest, hin, ?_⟩
      by_contra hout
      exact hx (readByte_off_stored _ _ _ _ hwf hfit (by rw [bytesOfWord_length]; omega))
    · have hmem : x ∈ as := by
        by_contra hnot
        exact hx (readByte_writeFree _ _ _ hwf hnot)
      obtain ⟨pending, reached⟩ := settled x hmem
      simp only [State.settles_has, State.withInputs_params, State.withInputs_isBusy, State.withInputs_buffer,
        Bool.and_eq_true, Bool.not_eq_true', Bool.and_eq_false_imp] at reached
      obtain ⟨hm, hr, hoff⟩ := reached
      refine .inr (.inr ⟨hm, pending, hoff, r, rest, ?_, hr⟩)
      obtain rfl | rfl := hop
      · exact .inl hin
      · exact .inr hin

/-! The end of a running command. -/

/-- A command that ran at the engine's turn ran in the state itself, or with the engine's input taken off. -/
theorem EngineServed.cases {s t : State} {op : Instr} {ins : List Input} (hs : EngineServed s ins)
    (h : exec op (s.withInputs ins) = .next t) :
    (s.inputs = [] ∧ exec op s = .next t) ∨
      (∃ rest, s.inputs = .engine :: rest ∧ exec op (s.withInputs rest) = .next t) ∨
      ∃ rest, s.inputs = .wait 0 :: rest ∧ exec op s = .next t := by
  obtain ⟨hin, rfl⟩ | hin | ⟨rest, hin, rfl⟩ := hs
  · refine .inl ⟨hin, ?_⟩
    rwa [← hin, State.withInputs_inputs_self] at h
  · exact .inr (.inl ⟨ins, hin, h⟩)
  · exact .inr (.inr ⟨rest, hin, h⟩)

/-- Settles O11: a host transaction keeps the command (`HostActed.keeps_command`); what runs at the engine's turn is the latched
command, and it completes. -/
theorem onlyCompletionOrResetEndsACommand : Obligations.OnlyCompletionOrResetEndsACommand := by
  intro s t op snap hp h
  cases step_cases h with
  | idled ins hidle _ => cases hidle.symm.trans hp
  | polled ins ht => exact .inl (ht ▸ ⟨hp, rfl, rfl, rfl, rfl⟩)
  | host op' rest _ ht =>
    obtain ⟨ephase, ewidth, eheight, ebase, elen, -, -⟩ := (hostTurn_settle ht).keeps_command hp
    exact .inl ⟨ephase.trans hp, ewidth, eheight, ebase, elen⟩
  | reset rest hin ht =>
    exact .inr (.inr ⟨rest, hin, ht ▸ ⟨rfl, (s.withInputs rest).afterReset_readReg_eq_zero .status⟩⟩)
  | ran i ins ht latched =>
    obtain ⟨rfl, served⟩ := latched op snap hp
    refine .inr (.inl ?_)
    obtain ⟨hidle, -⟩ | ⟨hidle, -, -⟩ | ⟨_, _, -, rfl⟩ := exec_cases ht
    · cases hidle.symm.trans hp
    · cases hidle.symm.trans hp
    · exact ⟨rfl, ⟨rfl, rfl, rfl, rfl, rfl, rfl⟩, served.cases ht⟩

/-! Reset as one step. -/

/-- Settles O6: reset leaves the table's values, and of memory what `State.memAfterReset` says in either phase. -/
theorem resetKeepsMemoryOutsideARunningBuffer : Obligations.ResetKeepsMemoryOutsideARunningBuffer := by
  intro s rest hin
  refine ⟨_, step_reset hin, State.afterReset_readReg_eq_zero _, rfl, rfl, rfl, rfl, rfl, fun hidle => ?idle, fun hbusy => ?busy⟩
  case idle =>
    refine ⟨State.memAfterReset_idle (s := s.withInputs rest) hidle, ?_⟩
    simp [s.isBusy_of_idle hidle]
  case busy =>
    refine ⟨?stale, fun hwf hfit => ⟨fun x hx => ?outside, fun k hk => ?inside⟩⟩
    case stale =>
      cases hm : s.params.memCoherent <;> simp [hbusy, hm]
    case outside => exact State.readByte_memAfterReset_outside (s := s.withInputs rest) hwf hbusy hfit hx
    case inside => exact State.readByte_memAfterReset_inside (s := s.withInputs rest) hwf hbusy hfit hk

end Sys2Proof.Machine
end

section
/-! PROOFS. Issue: what validation answers (60_exceptions R181), a CMD write as one step (R180), and where a command is refused or
stuck (20_memory R64, R65). -/

namespace Sys2Proof.Machine

/-! Validation (60_exceptions R181). -/

/-- The words of the four commands (30_encoding R72). -/
theorem exists_eq_encode_iff (c : Word) : (∃ i, c = encode i) ↔ c = 1 ∨ c = 2 ∨ c = 3 ∨ c = 4 := by
  constructor
  · rintro ⟨i, rfl⟩
    cases i <;> decide
  · rintro (rfl | rfl | rfl | rfl)
    · exact ⟨.grey, rfl⟩
    · exact ⟨.hsv, rfl⟩
    · exact ⟨.emboss, rfl⟩
    · exact ⟨.blur, rfl⟩

/-- A word is a command's, and then the operands decide; or it is ILLEGAL_OP. -/
theorem validate_cases (c : Word) (p : Params) (w h b l : Word) :
    ((∃ i, c = encode i) ∧ validate c p w h b l = validateOperands p w h b l) ∨
    ((¬ ∃ i, c = encode i) ∧ validate c p w h b l = .illegalOp) := by
  unfold validate
  cases hd : decodeWord c with
  | ok i => exact .inl ⟨⟨i, decodeWord_eq_ok_iff.mp hd⟩, rfl⟩
  | error e =>
    refine .inr ⟨fun ⟨i, hi⟩ => ?_, rfl⟩
    cases hd.symm.trans (decodeWord_eq_ok_iff.mpr hi)

/-- Settles O13: the word decides ILLEGAL_OP (`validate_cases`), and `validateOperands_iff` lists the bad operands. -/
theorem validationTableDecidesTheCode : Obligations.ValidationTableDecidesTheCode := by
  intro c p w h b l legal bad
  obtain ⟨hok, hrange⟩ := validateOperands_iff p w h b l
  have hlegal : (∃ i, c = encode i) ↔ legal := exists_eq_encode_iff c
  have hbad : validateOperands p w h b l = .invalidBuffer ↔ bad := by
    rw [← not_iff_not, ← hok]
    rcases hrange with e | e <;> simp [e]
  obtain ⟨hi, e⟩ | ⟨hi, e⟩ := validate_cases c p w h b l <;> rw [e] <;> rw [hlegal] at hi
  · refine ⟨?_, by rw [hbad, and_iff_right hi], by rw [hok, and_iff_right hi]⟩
    rcases hrange with e | e <;> simp [e, hi]
  · simp [hi]

/-! A CMD write while IDLE, as one step (60_exceptions R180). -/

theorem cmdWrite_of_command {s : State} {c : Word} {i : Instr} (hidle : s.phase = .idle) (hc : decodeWord c = .ok i) :
    cmdWrite c s = .run i s := by
  rw [cmdWrite, s.isBusy_of_idle hidle, hc]
  rfl

theorem step_wr_cmd {s : State} {c : Word} {i : Instr} {rest : List Input} (hidle : s.phase = .idle)
    (hin : s.inputs = .host (.wr 0x00 4 c) :: rest) (hc : decodeWord c = .ok i) :
    step s = exec i (s.withInputs rest) := by
  rw [step_wr_slot hin (r := .cmd) rfl, writeReg, cmdWrite_of_command (s := s.withInputs rest) hidle hc, perform]

theorem step_engine_busy {s : State} {op : Instr} {snap : Memory} {rest : List Input} (hp : s.phase = .busy op snap)
    (hin : s.inputs = .engine :: rest) : step s = exec op (s.withInputs rest) := by
  rw [step_engine hin, engineTurn_busy (s := s.withInputs rest) hp, perform]

/-- Settles O4: the CMD write and the engine's turn run the command, and a placed table word is a CMD write while IDLE. -/
theorem stepRunsTheDecodedCommand : Obligations.StepRunsTheDecodedCommand := by
  refine ⟨fun s c i rest hidle hin hc => step_wr_cmd hidle hin hc, fun s op snap hp hin => ?noInput,
    fun s op snap rest hp hin => step_engine_busy hp hin, fun s w i hw => ?tableWord⟩
  case noInput => rw [step_nil hin, engineTurn_busy hp, perform]
  case tableWord =>
    have hword : decodeWord (tableWord 32 w) = .ok i := decodeWord_eq_ok_iff.mpr (decodeTableWord_eq_some_iff.mp hw)
    exact step_wr_cmd (s := s.withFetchWord 32 w) rfl rfl hword

/-! The snapshot (20_memory R55, R63). -/

/-- An address inside a range that ends in the address space does not wrap. -/
theorem toNat_add_ofNat {a : Word} {n k : Nat} (hfit : a.toNat + n ≤ 4294967296) (hk : k < n) :
    (a + BitVec.ofNat 32 k).toNat = a.toNat + k := by
  bv_omega

/-- Byte `k` of the snapshot: memory's, or free where MEM_COHERENT is false and a store to it is pending. -/
theorem State.readByte_snapshot_eq {s : State} (hfit : s.base.toNat + 4 * s.pixels ≤ 4294967296) {k : Nat}
    (hk : k < 4 * s.pixels) :
    readByte s.snapshot (s.base + BitVec.ofNat 32 k) =
      if s.params.memCoherent = false ∧ anyHas s.hostStores (s.base.toNat + k) = true then Config.freeByte (s.draws + k)
      else readByte s.mem (s.base + BitVec.ofNat 32 k) := by
  have haddr := toNat_add_ofNat hfit hk
  cases hm : s.params.memCoherent with
  | true => rw [State.readByte_snapshot hm _ (by omega), if_neg (by simp)]
  | false =>
    rw [State.snapshot, if_neg (by simp [hm]), readByte_stored _ _ _ k Memory.wf_nil (by simpa using hfit) (by simpa using hk)]
    simp [State.engineSees]

/-- The state a command is accepted in, field by field. -/
theorem State.accept_eq (s : State) (i : Instr) :
    s.accept i = { s with
      phase := .busy i s.snapshot, done := false, err := .ok
      draws := if s.params.memCoherent then s.draws else s.draws + 4 * s.pixels } := by
  rw [State.accept, State.snapshotDraws]
  cases s.params.memCoherent <;> rfl

/-- Settles O14: a word that decodes is issued, and its operands decide (`issue_of_bad_operands`, `issue_of_good_operands`); any other
is rejected by the CMD write itself. -/
theorem issueIsOneAtomicStep : Obligations.IssueIsOneAtomicStep := by
  intro s c rest hidle hin hdev
  obtain ⟨⟨i, rfl⟩, e⟩ | ⟨-, e⟩ := validate_cases c s.params s.width s.height s.base s.len
  · have hstep : step s = issue i (s.withInputs rest) :=
      (step_wr_cmd hidle hin (decodeWord_encode i)).trans (exec_idle i hidle)
    rw [State.validate, e]
    refine ⟨fun hv => ?rejected, fun hv => ⟨i, s.snapshot, decodeWord_encode i, ?accepted, fun k hk => ?snapshot⟩⟩
    case rejected =>
      rw [hstep, issue_of_bad_operands (s := s.withInputs rest) hv, (validateOperands_iff ..).2.resolve_left hv]
      rfl
    case accepted =>
      rw [hstep, issue_of_good_operands (s := s.withInputs rest) hv hdev, State.accept_eq]
      rfl
    case snapshot => exact State.readByte_snapshot_eq (State.fits_of_ok hv) hk
  · have hv : s.validate c = .illegalOp := e
    rw [hv]
    refine ⟨fun _ => ?illegal, fun h => nomatch h⟩
    rw [step_wr_slot hin (r := .cmd) rfl, writeReg, cmdWrite_of_illegal (s := s.withInputs rest) hidle hv]
    rfl

/-- Settles O17: `issue_of_good_operands`, and a coherent snapshot draws nothing. -/
theorem goodCommandIsAccepted : Obligations.GoodCommandIsAccepted := by
  intro s i hidle hwf hm hv hdev
  have hfit := State.fits_of_ok hv
  refine ⟨s.snapshot, ?_, State.snapshot_wf hwf, fun k hk => ?_⟩
  · rw [exec_idle i hidle, issue_of_good_operands hv hdev, State.accept_eq, if_pos hm]
  · exact State.readByte_snapshot hm _ (by rw [toNat_add_ofNat hfit hk]; omega)

/-! Where a command is refused or stuck (20_memory R64, R65). -/

/-- Settles O18: of the answers of `issue_cases` only the refusal agrees with operands that pass and a buffer over a device. -/
theorem bufferOverDeviceIsRefused : Obligations.BufferOverDeviceIsRefused := by
  intro s i hidle hv hdev
  rw [exec_idle i hidle]
  obtain ⟨hbad, -⟩ | ⟨-, -, e⟩ | ⟨-, hoff, -⟩ := issue_cases i s
  · exact absurd hv hbad
  · exact e
  · cases hdev.symm.trans hoff

/-- Settles O19: of the answers of `complete_cases` only the fault agrees with a buffer that is not backed. -/
theorem unbackedBufferSticksTheEngine : Obligations.UnbackedBufferSticksTheEngine := by
  intro s i op snap hp hunbacked
  rw [exec_busy i hp]
  obtain ⟨-, e⟩ | ⟨hbacked, -⟩ := complete_cases (resultOf i s.params (pixelAt snap s.base) s.width.toNat s.height.toNat) s
  · exact e
  · cases hunbacked.symm.trans hbacked

end Sys2Proof.Machine
end

section
/-! PROOFS. Completion of each command (60_exceptions R185; 41_greyscale R120, 42_hsv R130, 43_emboss R150, 44_blur R165), and the runs
from the CMD write to it. -/

namespace Sys2Proof.Machine

/-! What each command leaves in the buffer. -/

/-- The frame of a command's completion: HSV stores three bytes a pixel, the others four. -/
theorem completedOver_result (i : Instr) {s : State} (hc : s.canComplete) (px : Nat → Word) :
    completedOver (if i = .hsv then 3 * s.pixels else 4 * s.pixels) s
      (s.complete (resultOf i s.params px s.width.toNat s.height.toNat)) := by
  have hlen := length_resultOf i s.params px s.width.toNat s.height.toNat
  rw [← State.pixels] at hlen
  rw [← hlen]
  exact State.complete_over hc (length_resultOf_le i ..)

/-- Settles O20: memory holds `greyPixel` of the snapshot's pixel. -/
theorem greyCompletes : Obligations.GreyCompletes := by
  intro s op snap hp hc
  exact ⟨_, exec_complete .grey hp hc, completedOver_result .grey hc _, fun i hi => pixelAt_complete_grey hc snap hi⟩

/-- Settles O21: memory holds the three bytes of `hsvPixel` of the snapshot's pixel. -/
theorem hsvCompletes : Obligations.HsvCompletes := by
  intro s op snap hp hc
  refine ⟨_, exec_complete .hsv hp hc, completedOver_result .hsv hc _, fun i hi => ?_⟩
  have byte := fun k (hk : k < 3) => readByte_hsvResult hc s.params.hsvArith (pixelAt snap s.base) hi hk
  exact ⟨byte 0 (by decide), byte 1 (by decide), byte 2 (by decide)⟩

theorem toNat_embossLevel_eq_toNat (w u : Word) : (embossLevel w u).toNat = ((128 + diffMax w u) % 256).toNat := by
  rw [← toNat_embossLevel, Int.toNat_natCast]

/-- Settles O22: memory holds `embossPixel` of the snapshot, whose neighbour is `topLeft_mul_add`'s. -/
theorem embossCompletes : Obligations.EmbossCompletes := by
  intro s op snap hp hc
  refine ⟨_, exec_complete .emboss hp hc, completedOver_result .emboss hc _, fun row col hrow hcol => ?_⟩
  have hword := readWord_result hc (embossPixel (pixelAt snap s.base) s.width.toNat) (mul_add_lt_pixels hrow hcol)
  rw [embossPixel, topLeft_mul_add hcol, greyWord, toNat_embossLevel_eq_toNat] at hword
  exact hword

/-- Settles O23: memory holds `blurPixel` of the snapshot, whose channels are the blur sums over 256, at most 255 each. -/
theorem blurCompletes : Obligations.BlurCompletes := by
  intro s op snap hp hc
  refine ⟨_, exec_complete .blur hp hc, completedOver_result .blur hc _, fun i hi => ?_⟩
  have hword := readWord_result hc (blurPixel (pixelAt snap s.base) s.width.toNat s.height.toNat) hi
  simp only [blurPixel, toNat_blurChannel] at hword
  simp only [min_eq_right (blurSum_div_256_le _ _ _ _ _)]
  exact hword

/-- The bytes behind HSV's triples are not written (42_hsv R138). -/
theorem readByte_complete_hsv_tail {s : State} (hc : s.canComplete) (px : Nat → Word) {k : Nat} (hlow : 3 * s.pixels ≤ k)
    (hk : k < 4 * s.pixels) :
    readByte (s.complete (resultOf .hsv s.params px s.width.toNat s.height.toNat)).mem (s.base + BitVec.ofNat 32 k) =
      readByte s.mem (s.base + BitVec.ofNat 32 k) := by
  have hlen : (resultOf .hsv s.params px s.width.toNat s.height.toNat).length = 3 * s.pixels := length_hsvResult ..
  rw [readByte_complete hc (by omega) hk, List.getElem?_eq_none (by omega), Option.getD_none]

/-- Settles O25: the tail keeps memory's bytes, which the invariant says are the snapshot's. -/
theorem hsvTailHoldsTheSnapshot : Obligations.HsvTailHoldsTheSnapshot := by
  intro s op snap hp hinv hc hm
  refine ⟨_, exec_complete .hsv hp hc, fun k hlow hk => ?_⟩
  rw [readByte_complete_hsv_tail hc _ hlow hk, hinv.readByte_buffer hp hc hm hk, ← readByte_eq_getD_pixelAt]

/-! From the CMD write to the completion. -/

/-- A command whose buffer is backed completes, whatever memory's form. -/
theorem exec_of_backed (i : Instr) {s : State} {op : Instr} {snap : Memory} (hp : s.phase = .busy op snap)
    (hbacked : anyMeets s.params.unbacked s.buffer = false) :
    exec i s = .next (s.complete (resultOf i s.params (pixelAt snap s.base) s.width.toNat s.height.toNat)) := by
  rw [exec_busy i hp, Machine.complete, hbacked, if_neg (by decide)]

/-- A command accepted and then given the engine's turn completes over its own snapshot (60_exceptions R180, R185). -/
theorem step_step_command {s : State} {i : Instr} {rest : List Input} (hidle : s.phase = .idle)
    (hin : s.inputs = .host (.wr 0x00 4 (encode i)) :: .engine :: rest)
    (hv : validateOperands s.params s.width s.height s.base s.len = .ok) (hdev : s.overDevice = false)
    (hbacked : anyMeets s.params.unbacked s.buffer = false) :
    step s = .next ((s.withInputs (.engine :: rest)).accept i) ∧
    step ((s.withInputs (.engine :: rest)).accept i) =
      .next (((s.withInputs rest).accept i).complete
        (resultOf i s.params (pixelAt s.snapshot s.base) s.width.toNat s.height.toNat)) := by
  constructor
  · rw [step_wr_cmd hidle hin (decodeWord_encode i), exec_idle i (s := s.withInputs (.engine :: rest)) hidle]
    exact issue_of_good_operands (s := s.withInputs (.engine :: rest)) hv hdev i
  · rw [step_engine_busy rfl rfl]
    exact exec_of_backed i (s := (s.withInputs rest).accept i) rfl hbacked

/-- Memory after a command over the pixels of memory itself holds what the command's rule says. -/
theorem transformedBy_complete (i : Instr) {s t : State} (hc : s.canComplete)
    (ht : t.mem = (s.complete (resultOf i s.params (pixelAt s.mem s.base) s.width.toNat s.height.toNat)).mem) :
    transformedBy i s t := by
  intro k hk
  rw [ht]
  cases i with
  | grey => exact pixelAt_complete_grey hc s.mem hk
  | hsv =>
    have byte := fun j (hj : j < 3) => readByte_hsvResult hc s.params.hsvArith (pixelAt s.mem s.base) hk hj
    exact ⟨byte 0 (by decide), byte 1 (by decide), byte 2 (by decide),
      readByte_complete_hsv_tail hc _ (by omega) (by omega)⟩
  | emboss => exact readWord_result hc (embossPixel (pixelAt s.mem s.base) s.width.toNat) hk
  | blur => exact readWord_result hc (blurPixel (pixelAt s.mem s.base) s.width.toNat s.height.toNat) hk

/-- Settles O26: the two steps of `step_step_command`; a coherent snapshot has memory's pixels, so the result is memory's. -/
theorem commandTransformsTheBuffer : Obligations.CommandTransformsTheBuffer := by
  intro s i rest hinv hidle hm hin hv hdev hbacked
  obtain ⟨hwf, -, -⟩ := hinv
  have hfit := State.fits_of_ok hv
  have hc : s.canComplete := ⟨hwf, hfit, hbacked⟩
  obtain ⟨hissue, hcomplete⟩ := step_step_command hidle hin hv hdev hbacked
  rw [resultOf_congr i (px' := pixelAt s.mem s.base) rfl rfl fun k hk => State.pixelAt_snapshot hm hfit hk] at hcomplete
  have hlists (bs : List Byte) : (((s.withInputs rest).accept i).complete bs).engineWrites = s.engineWrites := if_pos hm
  exact ⟨_, _, hissue, rfl, rfl, rfl, hcomplete, rfl, rfl, rfl, rfl, transformedBy_complete i hc rfl, rfl, rfl, rfl, rfl, rfl,
    rfl, rfl, rfl, hlists _, fun x hx => readByte_result_outside i hwf hfit _ hx⟩

/-- Settles O27: zero-area operands pass (`validateOperands_zero_area`), an empty buffer meets nothing, and the result has no byte. -/
theorem zeroAreaCommandChangesNoMemory : Obligations.ZeroAreaCommandChangesNoMemory := by
  intro s i rest hidle hin hne halign harea hlen hwidth
  have hv := validateOperands_zero_area hne halign harea hlen hwidth
  obtain ⟨hissue, hcomplete⟩ := step_step_command hidle hin hv (anyMeets_empty _ s harea) (anyMeets_empty _ s harea)
  have hresult : resultOf i s.params (pixelAt s.snapshot s.base) s.width.toNat s.height.toNat = [] := by
    have hle := length_resultOf_le i s.params (pixelAt s.snapshot s.base) s.width.toNat s.height.toNat
    rw [← State.pixels, harea] at hle
    exact List.eq_nil_of_length_eq_zero (by omega)
  rw [hresult] at hcomplete
  exact ⟨_, _, hissue, rfl, rfl, hcomplete, rfl, rfl, rfl, rfl⟩

end Sys2Proof.Machine
end

section
/-! PROOFS. STATUS and the register window: the fields of STATUS (10_state R25), register writes (R26 to R29), the WAIT loop (30_encoding
R77), and the window at REG_BASE (10_state R23, R30). -/

namespace Sys2Proof.Machine

/-! STATUS (10_state R25). -/

/-- The fields of STATUS in the word that `State.status_eq` gives. -/
theorem statusOf_fields (busy done wbusy : Bool) (e : Err) :
    (statusOf busy done wbusy e).getLsbD 0 = busy ∧ (statusOf busy done wbusy e).getLsbD 1 = done ∧
    (statusOf busy done wbusy e).extractLsb' 2 2 = errCode e ∧ (statusOf busy done wbusy e).getLsbD 4 = wbusy ∧
    (statusOf busy done wbusy e).toNat < 32 := by
  revert busy done wbusy
  cases e <;> decide

/-- Settles O30: the fields are `statusOf_fields`, and no code of ERR is 0b11. -/
theorem statusWordFields : Obligations.StatusWordFields := by
  intro s
  rw [State.status_eq]
  obtain ⟨hbusy, hdone, herr, hwbusy, hlt⟩ := statusOf_fields s.isBusy s.done s.wbusy s.err
  refine ⟨hbusy, hdone, herr, rfl, rfl, rfl, hwbusy, hlt, ?_⟩
  rw [herr]
  cases s.err <;> decide

theorem State.status_busy_bit (s : State) : s.status.getLsbD 0 = s.isBusy := (statusWordFields s).1

/-! Register writes (10_state R25 to R29). -/

/-- Settles O31: clearing where a 1 is written is keeping where a 0 is. -/
theorem statusWriteClearsOnes : Obligations.StatusWriteClearsOnes := by
  intro s v rest hin
  have clear (old bit : Bool) : (old && !bit) = if bit then false else old := by cases bit <;> simp
  rw [step_wr_slot hin (r := .status) rfl, writeReg, perform, State.writeStatus, clear, clear]
  rfl

/-- While IDLE a write of an operand register is not dropped. -/
theorem perform_operandWrite {s : State} (hidle : s.phase = .idle) (t : State) :
    perform (.settle (.next (if s.isBusy then s.dropWrite else t))) = .next t := by
  rw [s.isBusy_of_idle hidle]
  rfl

/-- Settles O32: each offset reaches its slot, and no write is dropped while IDLE. -/
theorem operandWritesWhileIdle : Obligations.OperandWritesWhileIdle := by
  intro s v rest hidle
  have operand (t : State) := perform_operandWrite (s := s.withInputs rest) hidle t
  exact ⟨fun hin => (step_wr_slot hin (r := .width) rfl).trans (operand _),
    fun hin => (step_wr_slot hin (r := .height) rfl).trans (operand _),
    fun hin => (step_wr_slot hin (r := .base) rfl).trans (operand _),
    fun hin => (step_wr_slot hin (r := .len) rfl).trans (operand _),
    fun hin => step_wr_slot hin (r := .reserved18) rfl, fun hin => step_wr_slot hin (r := .reserved1C) rfl⟩

/-! The WAIT loop (30_encoding R77). -/

theorem step_wait_idle {s : State} {n : Nat} {rest : List Input} (hin : s.inputs = .wait n :: rest) (hidle : s.phase = .idle) :
    step s = .next ((s.withInputs rest).returned s.status) := by
  rw [step_wait hin, waitTurn_idle (s := s.withInputs rest) n hidle, perform, State.withInputs_status]

theorem step_wait_poll {s : State} {n : Nat} {rest : List Input} (hin : s.inputs = .wait (n + 1) :: rest)
    (hbusy : s.isBusy = true) : step s = .next ((s.returned s.status).withInputs (.wait n :: rest)) := by
  obtain ⟨op, snap, hp⟩ := s.isBusy_iff.mp hbusy
  rw [step_wait hin, waitTurn_poll (s := s.withInputs rest) n hp, perform]
  rfl

/-- With no poll left the engine takes its turn, and the loop is not yet served. -/
theorem step_wait_last {s : State} {op : Instr} {snap : Memory} {rest : List Input} (hin : s.inputs = .wait 0 :: rest)
    (hp : s.phase = .busy op snap) : step s = exec op s := by
  rw [step_wait hin, waitTurn_last (s := s.withInputs rest) hp, perform, State.withInputs_inputs, State.withInputs_withInputs, ← hin,
    State.withInputs_inputs_self]

theorem run_succ_of_next {s t : State} (h : step s = .next t) (k : Nat) :
    Host.Core.run Sys2Proof.core (k + 1) s = Host.Core.run Sys2Proof.core k t := by
  have hcore : Sys2Proof.core.step s = .next t := h
  simp only [Host.Core.run, hcore]

/-- After the polls, the engine's turn and the last read of STATUS have been served. -/
theorem run_wait {op : Instr} {snap : Memory} {rest : List Input} (n : Nat) {s : State} (hp : s.phase = .busy op snap)
    (hin : s.inputs = .wait n :: rest) (hbacked : anyMeets s.params.unbacked s.buffer = false) :
    ∃ t, Host.Core.run Sys2Proof.core (n + 2) s = .next t ∧ t.phase = .idle ∧ t.inputs = rest ∧ t.done = true ∧ t.err = .ok ∧
      t.rdata = t.status := by
  induction n generalizing s with
  | zero =>
    obtain ⟨bs, hcomplete⟩ : ∃ bs, exec op s = .next (s.complete bs) := ⟨_, exec_of_backed op hp hbacked⟩
    have hread := step_wait_idle (s := s.complete bs) (n := 0) hin rfl
    have hlast := run_succ_of_next ((step_wait_last hin hp).trans hcomplete) 1
    exact ⟨_, hlast.trans (run_succ_of_next hread 0), rfl, rfl, rfl, rfl, rfl⟩
  | succ n ih =>
    have hpoll := run_succ_of_next (step_wait_poll hin (s.isBusy_of_busy hp)) (n + 2)
    obtain ⟨t, hrun, ht⟩ := ih (s := (s.returned s.status).withInputs (.wait n :: rest)) hp rfl hbacked
    exact ⟨t, hpoll.trans hrun, ht⟩

/-- Settles O29: each round is one of the lemmas above, and bits 0 and 1 of STATUS are BUSY and DONE. -/
theorem waitLoopEndsWithTheCompletion : Obligations.WaitLoopEndsWithTheCompletion := by
  refine ⟨fun n s rest hin hidle => ⟨step_wait_idle hin hidle, s.status_busy_bit.trans (s.isBusy_of_idle hidle)⟩,
    fun n s rest hin hbusy => ⟨step_wait_poll hin hbusy, s.status_busy_bit.trans hbusy⟩,
    fun n s op snap rest hp hin hbacked => ?run⟩
  obtain ⟨t, hrun, hidle, hins, hdone, herr, hdata⟩ := run_wait n hp hin hbacked
  obtain ⟨hbit0, hbit1, -⟩ := statusWordFields t
  refine ⟨t, hrun, hidle, hins, hdone, herr, hdata, ?_, ?_⟩ <;> rw [hdata]
  · exact hbit0.trans (t.isBusy_of_idle hidle)
  · exact hbit1.trans hdone

/-! What a host access reaches (20_memory R64, R65; 10_state R23, R38). -/

theorem target_outside {p : Params} {a : Word} {n : Nat} (h : a.toNat + n > 4294967296) : target p a n = .outside :=
  if_pos h

theorem target_window {p : Params} {a : Word} {n : Nat} (hfit : a.toNat + n ≤ 4294967296) (hn : 0 < n)
    (hlow : p.regBase < a.toNat + n) (hhigh : a.toNat < p.regBase + 32) :
    target p a n = .window (if p.regBase ≤ a.toNat then regAt (a.toNat - p.regBase) n else none) := by
  have hmeets : Region.meets ⟨a.toNat, n⟩ (windowRegion p) = true := (Region.meets_iff _ _).mpr ⟨hhigh, hlow, hn, Nat.zero_lt_succ 31⟩
  rw [target, if_neg (by omega), if_pos hmeets]

theorem target_beside_window {p : Params} {a : Word} {n : Nat} (hfit : a.toNat + n ≤ 4294967296)
    (hoff : Region.meets ⟨a.toNat, n⟩ (windowRegion p) = false) :
    target p a n = if anyMeets p.devices ⟨a.toNat, n⟩ then .device
      else if anyMeets p.unbacked ⟨a.toNat, n⟩ then .hole else .memory := by
  rw [target, if_neg (by omega), if_neg (by simp [hoff])]

/-- An access of a slot at REG_BASE + offset reaches that slot. -/
theorem target_slot {p : Params} {off : Nat} (hoff : off < 32) (hfit : p.regBase + off + 4 ≤ 4294967296) :
    target p (BitVec.ofNat 32 (p.regBase + off)) 4 = .window (regAt off 4) := by
  have haddr : (BitVec.ofNat 32 (p.regBase + off)).toNat = p.regBase + off := Nat.mod_eq_of_lt (by omega)
  rw [target_window (by omega) (by decide) (by omega) (by omega), haddr, if_pos (by omega), Nat.add_sub_cancel_left]

/-! Host accesses as one step. -/

theorem step_ld8 {s : State} {a : Word} {rest : List Input} (hin : s.inputs = .host (.ld8 a) :: rest) :
    step s = perform (hostLoad (target s.params a 1) a 1 (s.load8 a) (s.withInputs rest)) :=
  step_host hin

theorem step_ld32 {s : State} {a : Word} {rest : List Input} (hin : s.inputs = .host (.ld32 a) :: rest) :
    step s = perform (hostLoad (target s.params a 4) a 4 (s.load32 a) (s.withInputs rest)) :=
  step_host hin

theorem step_st32 {s : State} {a v : Word} {rest : List Input} (hin : s.inputs = .host (.st32 a v) :: rest) :
    step s = perform (hostStore (target s.params a 4) a v (s.withInputs rest)) :=
  step_host hin

/-- Settles O35: at a slot's address the target is the slot (`target_slot`), so both steps are the same turn; any other access that
touches the window reaches no slot. -/
theorem windowStandsAtRegBase : Obligations.WindowStandsAtRegBase := by
  refine ⟨fun s off v rest _ hoff hfit => ⟨?load, ?store⟩,
    fun s a v rest => ⟨fun hlow hhigh => ?byte, fun hlow hhigh hfit hbad => ?word⟩⟩
  case load =>
    rw [step_ld32 rfl, step_host rfl, State.withInputs_params, target_slot hoff hfit]
    rfl
  case store =>
    rw [step_st32 rfl, step_host rfl, State.withInputs_params, target_slot hoff hfit]
    rfl
  case byte =>
    have hslot : regAt (a.toNat - s.params.regBase) 1 = none := regAt_of_not_wf (by omega)
    have hlt := a.isLt
    rw [step_ld8 rfl, State.withInputs_params, target_window (by omega) (by decide) (by omega) hhigh, if_pos hlow, hslot]
    rfl
  case word =>
    have hslot : (if s.params.regBase ≤ a.toNat then regAt (a.toNat - s.params.regBase) 4 else none) = none := by
      split
      · exact regAt_of_not_wf (by omega)
      · rfl
    have htarget : target s.params a 4 = .window none := by
      rw [target_window hfit (by decide) hlow hhigh, hslot]
    constructor
    · rw [step_ld32 rfl, State.withInputs_params, htarget]
      rfl
    · rw [step_st32 rfl, State.withInputs_params, htarget]
      rfl

/-- A host load or store stops by what it reaches, whichever of the three it is. -/
theorem step_access_stops {s : State} {a v : Word} {n : Nat} {rest : List Input}
    (hin : (s.inputs = .host (.ld8 a) :: rest ∧ n = 1) ∨ (s.inputs = .host (.ld32 a) :: rest ∧ n = 4) ∨
      (s.inputs = .host (.st32 a v) :: rest ∧ n = 4)) :
    (target s.params a n = .outside → step s = .fault .outsideAddressSpace) ∧
    (target s.params a n = .device → step s = .refused .deviceAccess) ∧
    (target s.params a n = .hole → step s = .fault .busError) := by
  obtain ⟨hin, rfl⟩ | ⟨hin, rfl⟩ | ⟨hin, rfl⟩ := hin
  · rw [step_ld8 hin]
    refine ⟨?_, ?_, ?_⟩ <;> intro ht <;> rw [ht] <;> rfl
  · rw [step_ld32 hin]
    refine ⟨?_, ?_, ?_⟩ <;> intro ht <;> rw [ht] <;> rfl
  · rw [step_st32 hin]
    refine ⟨?_, ?_, ?_⟩ <;> intro ht <;> rw [ht] <;> rfl

/-- Settles O41: the targets are looked up in the order outside, window, device, hole. -/
theorem hostAccessOutsideMemoryStops : Obligations.HostAccessOutsideMemoryStops := by
  intro s a v n rest hin
  obtain ⟨outside, device, hole⟩ := step_access_stops hin
  refine ⟨fun h => outside (target_outside h), fun hfit hoff => ⟨fun hdev => device ?_, fun hdev hhole => hole ?_⟩⟩
  · rw [target_beside_window hfit hoff, hdev, if_pos rfl]
  · rw [target_beside_window hfit hoff, hdev, hhole]
    rfl

end Sys2Proof.Machine
end

section
/-! PROOFS. Host loads and stores of buffer memory (30_encoding R76): of settled bytes, of a running command's buffer (20_memory R58) and,
where MEM_COHERENT is false, of bytes not maintained (R63). -/

namespace Sys2Proof.Machine

/-! What an access meets. -/

theorem Region.meets_iff_exists_has {r : Region} {a n : Nat} :
    Region.meets ⟨a, n⟩ r = true ↔ ∃ k, k < n ∧ Region.has r (a + k) = true := by
  simp only [Region.meets_iff, Region.has_iff]
  constructor
  · intro h
    exact ⟨r.base - a, by omega, by omega⟩
  · rintro ⟨k, hk, hx⟩
    omega

theorem target_eq_memory_iff {p : Params} {a : Word} {n : Nat} :
    target p a n = .memory ↔
      a.toNat + n ≤ 4294967296 ∧ anyMeets (windowRegion p :: (p.devices ++ p.unbacked)) ⟨a.toNat, n⟩ = false := by
  have hcons (r : Region) : anyMeets (windowRegion p :: (p.devices ++ p.unbacked)) r =
      (Region.meets r (windowRegion p) || (anyMeets p.devices r || anyMeets p.unbacked r)) := by simp [anyMeets]
  rw [hcons, target]
  split_ifs <;> simp_all

/-- A shorter access at the address of an access of buffer memory is one of buffer memory. -/
theorem target_memory_mono {p : Params} {a : Word} {m n : Nat} (hmn : m ≤ n) (ht : target p a n = .memory) :
    target p a m = .memory := by
  rw [target_eq_memory_iff] at ht ⊢
  obtain ⟨hfit, hfree⟩ := ht
  refine ⟨by omega, ?_⟩
  simp only [anyMeets, List.any_eq_false] at hfree ⊢
  intro r hr hmeets
  obtain ⟨k, hk, hx⟩ := Region.meets_iff_exists_has.mp hmeets
  exact hfree r hr (Region.meets_iff_exists_has.mpr ⟨k, by omega, hx⟩)

/-! The bytes a load returns. -/

theorem State.unspecified_iff (s : State) (x : Nat) :
    s.unspecified x = true ↔ (s.isBusy = true ∧ Region.has s.buffer x = true) ∨
      (s.params.memCoherent = false ∧ anyHas s.engineWrites x = true) := by
  simp [State.unspecified]

theorem State.loadByte_eq {s : State} {a : Word} {n k : Nat} (hfit : a.toNat + n ≤ 4294967296) (hk : k < n) :
    s.loadByte a k = if s.unspecified (a.toNat + k) = true then Config.freeByte (s.draws + k)
      else readByte s.mem (a + BitVec.ofNat 32 k) := by
  rw [State.loadByte, toNat_add_ofNat hfit hk]

/-- A load takes free values, one a byte, when a byte of it is unspecified. -/
theorem State.loadDraws_eq {s : State} {a : Word} {n : Nat} (hfit : a.toNat + n ≤ 4294967296) :
    s.loadDraws a n = if ∃ k, k < n ∧ s.unspecified (a.toNat + k) = true then n else 0 := by
  rw [State.loadDraws]
  refine if_congr ?_ rfl rfl
  rw [List.any_eq_true]
  refine exists_congr fun k => ?_
  rw [List.mem_range]
  exact and_congr_right fun hk => by rw [toNat_add_ofNat hfit hk]

/-! A load of buffer memory as one step. -/

theorem target_memory_fits {p : Params} {a : Word} {n : Nat} (ht : target p a n = .memory) : a.toNat + n ≤ 4294967296 :=
  target_fits (by rw [ht]; decide)

theorem step_ld8_memory {s : State} {a : Word} {rest : List Input} (hin : s.inputs = .host (.ld8 a) :: rest)
    (ht : target s.params a 1 = .memory) :
    step s = .next { s with inputs := rest, rdata := s.load8 a, draws := s.draws + s.loadDraws a 1 } := by
  rw [step_ld8 hin, ht]
  rfl

theorem step_ld32_memory {s : State} {a : Word} {rest : List Input} (hin : s.inputs = .host (.ld32 a) :: rest)
    (ht : target s.params a 4 = .memory) :
    step s = .next { s with inputs := rest, rdata := s.load32 a, draws := s.draws + s.loadDraws a 4 } := by
  rw [step_ld32 hin, ht]
  rfl

/-- A word load returns its four bytes, each by the same rule. -/
theorem State.load32_eq {s : State} {a : Word} {byte : Nat → Byte} (h : ∀ k, k < 4 → s.loadByte a k = byte k) :
    s.load32 a = wordOfBytes (byte 0) (byte 1) (byte 2) (byte 3) := by
  rw [State.load32, h 0 (by decide), h 1 (by decide), h 2 (by decide), h 3 (by decide)]

section Settled

variable {s : State} {a : Word} {n : Nat} (hfit : a.toNat + n ≤ 4294967296)
  (hsettled : ∀ k, k < n → s.unspecified (a.toNat + k) = false)

include hfit hsettled

theorem State.loadByte_of_settled {k : Nat} (hk : k < n) : s.loadByte a k = readByte s.mem (a + BitVec.ofNat 32 k) := by
  rw [State.loadByte_eq hfit hk, hsettled k hk, if_neg (by decide)]

theorem State.loadDraws_of_settled : s.loadDraws a n = 0 := by
  rw [State.loadDraws_eq hfit, if_neg]
  rintro ⟨k, hk, h⟩
  cases (hsettled k hk).symm.trans h

end Settled

/-- Settles O38: no byte is unspecified, so each is memory's and no free value is taken. -/
theorem hostLoadReturnsMemory : Obligations.HostLoadReturnsMemory := by
  intro s a rest settled
  have specified (x : Nat) (hx : settled x) : s.unspecified x = false := by
    rw [← Bool.not_eq_true, State.unspecified_iff]
    rintro (⟨hbusy, hin⟩ | ⟨hm, hstale⟩)
    · cases hin.symm.trans (hx.1 hbusy)
    · obtain h | h := hx.2
      · cases hm.symm.trans h
      · cases hstale.symm.trans h
  refine ⟨fun hin ht hx => ?byte, fun hin ht hx => ?word⟩
  case byte =>
    have hfit := target_memory_fits ht
    have hall : ∀ k, k < 1 → s.unspecified (a.toNat + k) = false := fun k hk => by
      obtain rfl : k = 0 := by omega
      exact specified _ hx
    rw [step_ld8_memory hin ht, State.loadDraws_of_settled hfit hall, State.load8, State.loadByte_of_settled hfit hall (by decide),
      BitVec.add_zero]
    rfl
  case word =>
    have hfit := target_memory_fits ht
    have hall : ∀ k, k < 4 → s.unspecified (a.toNat + k) = false := fun k hk => specified _ (hx k hk)
    rw [step_ld32_memory hin ht, State.loadDraws_of_settled hfit hall,
      State.load32_eq fun k hk => State.loadByte_of_settled hfit hall hk, BitVec.add_zero]
    rfl

/-- A byte load of an unspecified byte returns the next free value. -/
theorem step_ld8_unspecified {s : State} {a : Word} {rest : List Input} (hin : s.inputs = .host (.ld8 a) :: rest)
    (ht : target s.params a 1 = .memory) (hu : s.unspecified a.toNat = true) :
    step s = .next { s with inputs := rest, rdata := (Config.freeByte s.draws).setWidth 32, draws := s.draws + 1 } := by
  have hfit := target_memory_fits ht
  rw [step_ld8_memory hin ht, State.loadDraws_eq hfit, if_pos ⟨0, by decide, hu⟩, State.load8, State.loadByte_eq hfit (by decide),
    Nat.add_zero, if_pos hu, Nat.add_zero]

/-- Settles O40: a byte of the running buffer is unspecified, and a store that reaches one is the race. -/
theorem hostAccessToARunningBuffer : Obligations.HostAccessToARunningBuffer := by
  intro s a v rest hbusy
  refine ⟨fun hin ht hreach => ?store, fun hin ht hx => ?byte, fun hin ht => ?word⟩
  case store =>
    have hmeets : Region.meets ⟨a.toNat, 4⟩ s.buffer = true := Region.meets_iff_exists_has.mpr hreach
    rw [step_st32 hin, ht, hostStore, if_pos (by simp [hbusy, hmeets]), perform]
  case byte => exact step_ld8_unspecified hin ht ((s.unspecified_iff _).mpr (.inl ⟨hbusy, hx⟩))
  case word =>
    intro byte
    have hbyte : ∀ k, k < 4 → s.loadByte a k = byte k := fun k hk => by
      rw [State.loadByte_eq (target_memory_fits ht) hk]
      exact if_congr (by rw [State.unspecified_iff, and_iff_right hbusy]) rfl rfl
    exact ⟨_, step_ld32_memory hin ht, State.load32_eq hbyte, rfl⟩

/-- Settles O42: a pending byte is free in the snapshot (`State.readByte_snapshot_eq`), a stale byte is unspecified to a load. -/
theorem unmaintainedBytesAreFree : Obligations.UnmaintainedBytesAreFree := by
  intro s hm
  refine ⟨fun hfit k hk => ?snapshot, fun a rest => ⟨fun hin ht hstale => ?byte, fun hin ht hstale => ?word⟩⟩
  case snapshot =>
    rw [State.readByte_snapshot_eq hfit hk]
    exact if_congr (and_iff_right hm) rfl rfl
  case byte => exact step_ld8_unspecified hin ht ((s.unspecified_iff _).mpr (.inr ⟨hm, hstale⟩))
  case word =>
    intro byte
    have hfit := target_memory_fits ht
    have hbyte : ∀ k, k < 4 → s.loadByte a k = byte k := fun k hk => by
      rw [State.loadByte_eq hfit hk]
      exact if_congr (by rw [State.unspecified_iff, and_iff_right hm, or_comm]) rfl rfl
    have hdraws : s.loadDraws a 4 = 4 := by
      rw [State.loadDraws_eq hfit, if_pos]
      exact hstale.imp fun k hk => ⟨hk.1, (s.unspecified_iff _).mpr (.inr ⟨hm, hk.2⟩)⟩
    rw [step_ld32_memory hin ht, State.load32_eq hbyte, hdraws]

/-! A store (20_memory R53, R63). -/

theorem readWord_writeBytes_bytesOfWord {m : Memory} (hwf : m.wf) {a : Word} (hfit : a.toNat + 4 ≤ 4294967296) (v : Word) :
    readWord (writeBytes m a (bytesOfWord v)) a = v := by
  have hpixel := readWord_pixelBytes m a (fun _ => v) 1 0 hwf hfit Nat.one_pos
  rwa [Nat.mul_zero, BitVec.add_zero] at hpixel

theorem step_st32_memory {s : State} {a v : Word} {rest : List Input} (hin : s.inputs = .host (.st32 a v) :: rest)
    (ht : target s.params a 4 = .memory) (hoff : s.isBusy = true → ∀ k, k < 4 → Region.has s.buffer (a.toNat + k) = false) :
    step s = .next ((s.withInputs rest).stored a v) := by
  rw [step_st32 hin, ht, hostStore, if_neg, perform]
  rw [Bool.and_eq_true, Region.meets_iff_exists_has]
  rintro ⟨hbusy, k, hk, hx⟩
  cases (hoff hbusy k hk).symm.trans hx

/-- Settles O39: the four bytes are the stored word's, and the lists change by exactly their addresses. -/
theorem hostStoreStoresItsWord : Obligations.HostStoreStoresItsWord := by
  intro s a v rest hwf hin ht hoff
  have hfit := target_memory_fits ht
  refine ⟨_, step_st32_memory hin ht hoff, rfl, readWord_writeBytes_bytesOfWord hwf hfit v,
    fun x hx => readByte_off_stored _ _ _ _ hwf hfit hx, fun hm => ⟨if_pos hm, if_pos hm⟩, fun hm x => ?lists⟩
  have hrange := Region.has_iff ⟨a.toNat, 4⟩ x
  have hstores : ((s.withInputs rest).stored a v).hostStores = ⟨a.toNat, 4⟩ :: s.hostStores := if_neg (by simp [hm])
  have hwrites : ((s.withInputs rest).stored a v).engineWrites = without s.engineWrites ⟨a.toNat, 4⟩ := if_neg (by simp [hm])
  rw [hstores, hwrites, anyHas_without, ← hrange]
  refine ⟨?_, ?_⟩
  · simp [anyHas]
  · simp [and_comm]

/-- Settles O37: the store is `hostStoreStoresItsWord`'s, and the loads that follow are `hostLoadReturnsMemory`'s. -/
theorem storeThenLoadReturnsTheWord : Obligations.StoreThenLoadReturnsTheWord := by
  intro s a v rest hwf hidle hm ht hin
  have notBusy : ¬ s.isBusy = true := by simp [s.isBusy_of_idle hidle]
  obtain ⟨u, hstep, hu, hword, hkeep, hlists, -⟩ := hostStoreStoresItsWord s a v _ hwf hin ht (absurd · notBusy)
  obtain ⟨hstores, hwrites⟩ := hlists hm
  rw [hstores, hwrites] at hu
  have hparams : u.params = s.params := by rw [hu]
  have hfree : ¬ u.isBusy = true := by simp [u.isBusy_of_idle (by rw [hu, hidle])]
  have hbyte : readByte u.mem a = v.extractLsb' 0 8 := by
    obtain ⟨-, hred, -⟩ := memoryIsLittleEndian u.mem a
    rw [← hred, hword]
    rfl
  have htu : target u.params a 4 = .memory := by rw [hparams, ht]
  have hcoherent : u.params.memCoherent = true := by rw [hparams, hm]
  obtain ⟨-, load32⟩ := hostLoadReturnsMemory u a rest
  obtain ⟨load8, -⟩ := hostLoadReturnsMemory (u.withInputs (.host (.ld8 a) :: rest)) a rest
  refine ⟨u, hstep, ?word, hkeep, hbyte, hu, ?byte⟩
  case word =>
    rw [load32 (by rw [hu]) htu fun _ _ => ⟨fun h => absurd h hfree, .inl hcoherent⟩, hword]
  case byte =>
    rw [load8 rfl (target_memory_mono (by decide) htu) ⟨fun h => absurd h hfree, .inl hcoherent⟩, State.withInputs_mem, hbyte]
    rfl

end Sys2Proof.Machine
end

section
/-! PROOFS. Cache maintenance (20_memory R63): what a write-back and an invalidation settle, byte by byte, and what a command and a host
load see after it. -/

namespace Sys2Proof.Machine

/-! What a maintenance settles. -/

theorem State.settles_of_coherent {s : State} (hm : s.params.memCoherent = true) (r : Region) : s.settles r = [] :=
  if_pos hm

theorem State.settles_iff {s : State} (hm : s.params.memCoherent = false) (r : Region) (x : Nat) :
    anyHas (s.settles r) x = true ↔ Region.has r x = true ∧ (s.isBusy = true → Region.has s.buffer x = false) := by
  rw [State.settles_has, hm]
  cases s.isBusy <;> simp

/-- The addresses left in a list are those not settled. -/
theorem State.anyHas_withoutAll_settles {s : State} (hm : s.params.memCoherent = false) (l : List Region) (r : Region) (x : Nat) :
    anyHas (withoutAll l (s.settles r)) x = true ↔
      anyHas l x = true ∧ ¬ (Region.has r x = true ∧ (s.isBusy = true → Region.has s.buffer x = false)) := by
  rw [← State.settles_iff hm, anyHas_withoutAll, Bool.and_eq_true, Bool.not_eq_true', Bool.not_eq_true]

theorem State.pending_of_coherent {s : State} (hm : s.params.memCoherent = true) (r : Region) :
    s.clobbered r = [] ∧ s.discarded r = [] := by
  constructor <;> rw [List.eq_nil_iff_forall_not_mem] <;> intro x hx
  · obtain ⟨-, settled, -⟩ := State.mem_clobbered.mp hx
    rw [State.settles_of_coherent hm] at settled
    cases settled
  · obtain ⟨-, settled⟩ := State.mem_discarded.mp hx
    rw [State.settles_of_coherent hm] at settled
    cases settled

theorem State.wroteBack_of_coherent {s : State} (hm : s.params.memCoherent = true) (r : Region) : s.wroteBack r = s := by
  rw [State.wroteBack, (State.pending_of_coherent hm r).1, State.settles_of_coherent hm]
  rfl

theorem State.invalidated_of_coherent {s : State} (hm : s.params.memCoherent = true) (r : Region) : s.invalidated r = s := by
  rw [State.invalidated, (State.pending_of_coherent hm r).2, State.settles_of_coherent hm]
  rfl

/-! A maintenance as one step. -/

theorem step_writeBack {s : State} {r : Region} {rest : List Input} (hin : s.inputs = .host (.writeBack r) :: rest) :
    step s = .next ((s.withInputs rest).wroteBack r) :=
  step_host hin

theorem step_invalidate {s : State} {r : Region} {rest : List Input} (hin : s.inputs = .host (.invalidate r) :: rest) :
    step s = .next ((s.withInputs rest).invalidated r) :=
  step_host hin

/-- Settles O45: the lists by `State.anyHas_withoutAll_settles`; the bytes lost are `State.clobbered` for a write-back and
`State.discarded` for an invalidation. -/
theorem maintenanceSettlesByteByByte : Obligations.MaintenanceSettlesByteByByte := by
  intro s r rest hin
  refine ⟨fun hm => ?coherent, fun hm hwf => ?settling⟩
  case coherent =>
    obtain hin | hin := hin
    · rw [step_writeBack hin, State.wroteBack_of_coherent (s := s.withInputs rest) hm]
      rfl
    · rw [step_invalidate hin, State.invalidated_of_coherent (s := s.withInputs rest) hm]
      rfl
  case settling =>
    intro back reached
    have hsettles := State.settles_iff (s := s.withInputs rest) hm r
    have hleft := fun l => State.anyHas_withoutAll_settles (s := s.withInputs rest) hm l r
    obtain hin | hin := hin
    · have hback : back := hin
      refine ⟨_, step_writeBack hin, rfl, hleft _, fun x => ?_, fun x => ?_⟩
      · rw [or_iff_left_of_imp fun _ => hback, and_iff_left hback]
        rfl
      · intro lost
        have hlost : lost ↔ x ∈ (s.withInputs rest).clobbered r := by
          rw [State.mem_clobbered, hsettles]
          exact and_congr_right fun _ => and_congr_right fun _ => forall_prop_of_true hback
        rw [hlost]
        exact ⟨readByte_writeFree _ _ x hwf, readByte_writeFree_mem _ _ x hwf⟩
    · have hback : ¬ back := fun h => by cases hin.symm.trans h
      refine ⟨_, step_invalidate hin, rfl, hleft _, fun x => ?_, fun x => ?_⟩
      · rw [or_iff_right hback]
        exact hleft _ x
      · intro lost
        have hlost : lost ↔ x ∈ (s.withInputs rest).discarded r := by
          rw [State.mem_discarded, hsettles]
          exact and_congr_right fun _ => and_iff_left fun h => absurd h hback
        rw [hlost]
        exact ⟨readByte_writeFree _ _ x hwf, readByte_writeFree_mem _ _ x hwf⟩

/-! What is visible after it (20_memory R59). -/

/-- Settles O43: no byte of the buffer is left pending, and a byte is free only where it was both pending and stale. -/
theorem writeBackMakesStoresVisible : Obligations.WriteBackMakesStoresVisible := by
  intro s r rest hm hidle hwf hfit hcover hin
  refine ⟨_, step_writeBack hin, rfl, fun k hk => ?_⟩
  have hfree : ¬ s.isBusy = true := by simp [s.isBusy_of_idle hidle]
  have hnone : anyHas ((s.withInputs rest).wroteBack r).hostStores (s.base.toNat + k) = false := by
    rw [← Bool.not_eq_true]
    intro hleft
    obtain ⟨hpending, hout⟩ := (State.anyHas_withoutAll_settles (s := s.withInputs rest) hm _ r _).mp hleft
    exact hout ⟨hcover k hk hpending, fun hbusy => absurd hbusy hfree⟩
  refine ⟨hnone, ?snapshot, fun hkept => ?memory⟩
  case snapshot =>
    refine (State.readByte_snapshot_eq (s := (s.withInputs rest).wroteBack r) hfit hk).trans (if_neg fun h => ?_)
    cases hnone.symm.trans h.2
  case memory =>
    refine readByte_writeFree _ _ _ hwf fun hmem => ?_
    obtain ⟨hpending, -, hstale⟩ := State.mem_clobbered.mp hmem
    rw [toNat_add_ofNat hfit hk] at hpending hstale
    obtain h | h := hkept
    · cases h.symm.trans hpending
    · cases h.symm.trans hstale

theorem readWord_congr {m m' : Memory} {a : Word}
    (h : ∀ k, k < 4 → readByte m (a + BitVec.ofNat 32 k) = readByte m' (a + BitVec.ofNat 32 k)) : readWord m a = readWord m' a := by
  have h0 := h 0 (by decide)
  rw [BitVec.add_zero] at h0
  rw [readWord, readWord]
  exact congr (congr (congr (congrArg wordOfBytes h0) (h 1 (by decide))) (h 2 (by decide))) (h 3 (by decide))

/-- Settles O44: the invalidation is `maintenanceSettlesByteByByte`'s, so no byte of the word is lost or left stale, and the load is
`hostLoadReturnsMemory`'s. -/
theorem invalidationMakesResultsVisible : Obligations.InvalidationMakesResultsVisible := by
  intro s r a rest hm hidle hwf ht hbytes hin
  obtain ⟨-, settling⟩ := maintenanceSettlesByteByByte s r _ (.inr hin)
  obtain ⟨t, hstep, htEq, -, hwrites, hmem⟩ := settling hm hwf
  have hfree : ¬ s.isBusy = true := by simp [s.isBusy_of_idle hidle]
  have hfree' : ¬ t.isBusy = true := by simp [t.isBusy_of_idle (by rw [htEq, hidle])]
  have hback : ¬ s.inputs = .host (.writeBack r) :: .host (.ld32 a) :: rest := fun h => by cases hin.symm.trans h
  have hfit := target_memory_fits ht
  have hfresh : ∀ k, k < 4 → anyHas t.engineWrites (a.toNat + k) = false := fun k hk => by
    rw [← Bool.not_eq_true, hwrites, or_iff_right hback]
    rintro ⟨hstale, hout⟩
    obtain hr | h := (hbytes k hk).2
    · exact hout ⟨hr, fun hbusy => absurd hbusy hfree⟩
    · cases h.symm.trans hstale
  have hword : readWord t.mem a = readWord s.mem a := readWord_congr fun k hk => (hmem _).1 fun hlost => by
    rw [toNat_add_ofNat hfit hk, (hbytes k hk).1] at hlost
    cases hlost.1
  have htarget : target t.params a 4 = .memory := by rw [htEq, ht]
  refine ⟨t, hstep, htEq, ?_⟩
  rw [(hostLoadReturnsMemory t a rest).2 (by rw [htEq]) htarget fun k hk => ⟨fun h => absurd h hfree', .inr (hfresh k hk)⟩, hword]

end Sys2Proof.Machine
end

section
/-! PROOFS. rgb_to_greyscale: luma under BINARY64 (41_greyscale R122) beside EXACT's, and GREY applied twice (R124). -/

namespace Sys2Proof.Machine

/-! Rounding to 53 bits (41_greyscale R122). -/

theorem fl_of_lt {n : Nat} (h : n < 2 ^ 53) : fl n = n := by
  have hdrop : n.log2 + 1 - 53 = 0 := by
    by_cases hn : n = 0
    · rw [hn]
      decide
    · have := (Nat.log2_lt hn).mpr h
      omega
  simp only [fl, hdrop, if_true]

/-- A number of 53 + e bits is cut below its 53 leading bits, and rounded up past the half or to an even number on it. -/
theorem fl_eq {n e : Nat} (low : 2 ^ (52 + e) ≤ n) (high : n < 2 ^ (53 + e)) :
    fl n = (if 2 ^ e < 2 * (n % 2 ^ e) ∨ (2 ^ e = 2 * (n % 2 ^ e) ∧ n / 2 ^ e % 2 = 1) then n / 2 ^ e + 1
      else n / 2 ^ e) * 2 ^ e := by
  have hdrop : n.log2 + 1 - 53 = e := by
    have hn : n ≠ 0 := (lt_of_lt_of_le (Nat.two_pow_pos _) low).ne'
    have := (Nat.le_log2 hn).mpr low
    have := (Nat.log2_lt hn).mpr high
    omega
  simp only [fl, hdrop, Bool.or_eq_true, Bool.and_eq_true, decide_eq_true_eq, beq_iff_eq, ite_mul]
  split
  · next he => simp [he, Nat.mod_one]
  · rfl

/-- The quotient that rounding leaves, of 53 bits, at most half a last place away, and even on a tie. -/
theorem fl_nearest_even {n e : Nat} (low : 2 ^ (52 + e) ≤ n) (high : n < 2 ^ (53 + e)) :
    ∃ q, fl n = q * 2 ^ e ∧ 2 ^ 52 ≤ q ∧ q ≤ 2 ^ 53 ∧ 2 * fl n ≤ 2 * n + 2 ^ e ∧ 2 * n ≤ 2 * fl n + 2 ^ e ∧
      (2 * fl n = 2 * n + 2 ^ e ∨ 2 * n = 2 * fl n + 2 ^ e → q % 2 = 0) := by
  have hpos := Nat.two_pow_pos e
  have hsplit := Nat.div_add_mod' n (2 ^ e)
  have hrest := Nat.mod_lt n hpos
  have hq52 : 2 ^ 52 ≤ n / 2 ^ e := (Nat.le_div_iff_mul_le hpos).mpr (by rwa [← pow_add])
  have hq53 : n / 2 ^ e < 2 ^ 53 := (Nat.div_lt_iff_lt_mul hpos).mpr (by rwa [← pow_add])
  rw [fl_eq low high]
  refine ⟨_, rfl, ?_⟩
  generalize n / 2 ^ e = q at *
  generalize n % 2 ^ e = rest at *
  generalize 2 ^ e = ulp at *
  have hsucc := Nat.add_one_mul q ulp
  split
  · generalize (q + 1) * ulp = up at *
    omega
  · omega

/-- Rounding a number of at most 53 + e bits moves it by at most half of `2 ^ e`. -/
theorem fl_near {n e : Nat} (high : n < 2 ^ (53 + e)) : 2 * fl n ≤ 2 * n + 2 ^ e ∧ 2 * n ≤ 2 * fl n + 2 ^ e := by
  by_cases hsmall : n < 2 ^ 53
  · rw [fl_of_lt hsmall]
    exact ⟨Nat.le_add_right _ _, Nat.le_add_right _ _⟩
  · have hn : n ≠ 0 := by omega
    have hlog : 53 ≤ n.log2 := (Nat.le_log2 hn).mpr (by omega)
    have hbits : n.log2 < 53 + e := (Nat.log2_lt hn).mpr high
    obtain ⟨d, hd⟩ := Nat.exists_eq_add_of_le (show 52 ≤ n.log2 by omega)
    have hle : 2 ^ d ≤ 2 ^ e := Nat.pow_le_pow_right (by decide) (by omega)
    obtain ⟨-, -, -, -, above, below, -⟩ := fl_nearest_even ((Nat.le_log2 hn).mp hd.ge)
      ((Nat.log2_lt hn).mp (by omega : n.log2 < 53 + d))
    omega

/-! The luma expression (41_greyscale R122), as a multiple of 2^-56. -/

theorem c21_eq : c21 = 15132094747964866 := rfl
theorem c72_eq : c72 = 51881467707308112 := rfl
theorem c07_eq : c07 = 5044031582654956 := rfl

/-- The rounded sum of the rounded products, before the fraction is dropped. -/
def lumaSumBinary64 (r g b : Byte) : Nat := fl (fl (fl (c21 * r.toNat) + fl (c72 * g.toNat)) + fl (c07 * b.toNat))

/-- Five roundings of numbers below 2^64, and three constants rounded to 53 bits, stay far below a hundredth of 2^56. -/
theorem lumaSumBinary64_near (r g b : Byte) :
    100 * lumaSumBinary64 r g b ≤ (21 * r.toNat + 72 * g.toNat + 7 * b.toNat) * 2 ^ 56 + 2 ^ 20 ∧
    (21 * r.toNat + 72 * g.toNat + 7 * b.toNat) * 2 ^ 56 ≤ 100 * lumaSumBinary64 r g b + 2 ^ 20 := by
  have hr := r.isLt
  have hg := g.isLt
  have hb := b.isLt
  have near {n : Nat} (h : n < 2 ^ 64) := fl_near (n := n) (e := 11) h
  rw [lumaSumBinary64, c21_eq, c72_eq, c07_eq]
  have h1 := near (n := 15132094747964866 * r.toNat) (by omega)
  have h2 := near (n := 51881467707308112 * g.toNat) (by omega)
  have h3 := near (n := 5044031582654956 * b.toNat) (by omega)
  have h4 := near (n := fl (15132094747964866 * r.toNat) + fl (51881467707308112 * g.toNat)) (by omega)
  have h5 := near (n := fl (fl (15132094747964866 * r.toNat) + fl (51881467707308112 * g.toNat)) +
    fl (5044031582654956 * b.toNat)) (by omega)
  omega

/-- No wrap to 8 bits: white, the brightest pixel, stays below 256. -/
theorem toNat_lumaBinary64 (r g b : Byte) : (lumaBinary64 r g b).toNat = lumaSumBinary64 r g b / 2 ^ 56 := by
  have hnear := lumaSumBinary64_near r g b
  have hle := lumaSum_le r g b
  rw [lumaBinary64, ← lumaSumBinary64, BitVec.toNat_ofNat, Nat.mod_eq_of_lt (by omega)]

/-- Settles O50: the rounded sum is so near the exact one that it drops below a whole number only from one. -/
theorem binaryLumaIsExactOrOneLess : Obligations.BinaryLumaIsExactOrOneLess := by
  intro r g b
  have hnear := lumaSumBinary64_near r g b
  rw [← BitVec.toNat_inj, toNat_lumaBinary64, toNat_lumaExact]
  generalize 21 * r.toNat + 72 * g.toNat + 7 * b.toNat = sum at *
  omega

/-- Settles O51: rounding by `fl_of_lt` and `fl_nearest_even`; each constant is a 53-bit number times a power of two. -/
theorem binaryLumaRoundsToNearestEven : Obligations.BinaryLumaRoundsToNearestEven := by
  refine ⟨fun n h => fl_of_lt h, fun n e low high => fl_nearest_even low high, fun x hx => ?constants, toNat_lumaBinary64⟩
  simp only [List.mem_cons, List.not_mem_nil, or_false] at hx
  obtain rfl | rfl | rfl := hx
  · exact ⟨nearest 21 55, rfl, by decide⟩
  · exact ⟨nearest 72 53, rfl, by decide⟩
  · exact ⟨nearest 7 56, rfl, by decide⟩

/-! GREY twice (41_greyscale R124). -/

/-- The luma of a grey level is the level. -/
theorem lumaExact_self (level : Byte) : lumaExact level level level = level := by
  rw [← BitVec.toNat_inj, toNat_lumaExact]
  omega

/-- Settles O52: the grey pixel's channels are its level, whose luma is the level again, over the same alpha. -/
theorem exactGreyIsIdempotent : Obligations.ExactGreyIsIdempotent := by
  intro w
  obtain ⟨red, green, blue, alpha⟩ := unpack_greyWord (lumaExact (unpackRed w) (unpackGreen w) (unpackBlue w)) w
  rw [greyPixel, greyPixel, luma, red, green, blue, lumaExact_self, greyWord, alpha, greyWord]

end Sys2Proof.Machine
end
